-- ==== Sys2Proof/Word.lean ====
section
/-!
DEFINITION. The widths of the block: a byte of `BUF` or of a response payload is 8 bits, a hash
value, seed, operand or response word is 32 bits, a command word is 128 bits
(00_scope.md R7, R8; 30_encoding.md R61). Every value is unsigned (R9).
-/
namespace Sys2Proof

/-- A `u8`: one byte of `BUF` or of a response payload (00_scope.md R7, `BYTE_W`). -/
abbrev Byte := BitVec 8

/-- A `u32`: operands, `h`, `k`, `val` and response words (00_scope.md R7, R8). -/
abbrev Word := BitVec 32

/-- A command word `cmd[127:0]` (00_scope.md R8, `CMD_W`; 30_encoding.md R61). -/
abbrev Cmd := BitVec 128

end Sys2Proof
end

