-- ==== Sys2Proof/Syntax.lean ====
section
/-!
DEFINITION. The abstract command type of 30_encoding.md R60: one constructor for each row of
spec/opcode_table.json. `HASH.LE` and `HASH.BE` are the two spellings of `HASH` (R74).
-/
namespace Sys2Proof

/-- The endianness flag `e` of `HASH` (R60; 20_memory.md R45). -/
inductive Endian where
  /-- The byte at the lowest address is the least significant byte of the word. -/
  | little
  /-- The byte at the lowest address is the most significant byte of the word. -/
  | big
deriving DecidableEq, Repr

/-- The seven commands (R60). -/
inductive Instr where
  /-- `APPENDBITS value, nbits`. -/
  | appendbits (value : Word) (nbits : BitVec 6)
  /-- `APPENDSTR off, len`. -/
  | appendstr (off len : Word)
  /-- `BITLEN`. -/
  | bitlen
  /-- `BYTELEN`. -/
  | bytelen
  /-- `TOBYTES`. -/
  | tobytes
  /-- `TOBYTESTR`. -/
  | tobytestr
  /-- `HASH.e off, n, seed`. -/
  | hash (e : Endian) (off n seed : Word)
deriving DecidableEq, Repr

end Sys2Proof
end

