-- ==== Sys2Proof/WellFormed.lean ====
section
/-!
DEFINITION. Which terms of `Instr` are commands of 30_encoding.md R60. The one check beyond the
operand widths is `nbits : 0..32`: the 6-bit field also holds 33 to 63, which are illegal (R61, R66).
-/
namespace Sys2Proof

/-- R60: `nbits` of `APPENDBITS` is 0 to 32; every other operand may take every value of its field. -/
def Instr.wf : Instr → Bool
  | .appendbits _ nbits => decide (nbits.toNat ≤ 32)
  | .appendstr _ _ => true
  | .bitlen => true
  | .bytelen => true
  | .tobytes => true
  | .tobytestr => true
  | .hash _ _ _ _ => true

end Sys2Proof
end

