-- ==== Sys2Proof/Decode.lean ====
section
/-!
DEFINITION. The 128-bit command word: its fields (30_encoding.md R61), its transport as four words
(R62), the opcode map with its masks (R64), the total decoder (R68) and the encoder (R68).
-/
namespace Sys2Proof

/-! ### Fields (R61) -/

/-- `opcode = cmd[127:120]`. -/
def Cmd.opcode (w : Cmd) : Byte := w.extractLsb' 120 8

/-- `mod = cmd[119:96]`. -/
def Cmd.mod (w : Cmd) : BitVec 24 := w.extractLsb' 96 24

/-- `a = cmd[95:64]`. -/
def Cmd.a (w : Cmd) : Word := w.extractLsb' 64 32

/-- `b = cmd[63:32]`. -/
def Cmd.b (w : Cmd) : Word := w.extractLsb' 32 32

/-- `c = cmd[31:0]`. -/
def Cmd.c (w : Cmd) : Word := w.extractLsb' 0 32

/-- The word whose five fields are given, the opcode the most significant (R61). -/
def Cmd.ofFields (opcode : Byte) (mod : BitVec 24) (a b c : Word) : Cmd :=
  opcode ++ mod ++ a ++ b ++ c

/-! ### Transport (R62) -/

/-- The command moved as the four words `W0 W1 W2 W3`, `W0` first (R62). -/
def Cmd.ofWords (w0 w1 w2 w3 : Word) : Cmd := w0 ++ w1 ++ w2 ++ w3

/-- The four transport words of a command, `W0` first (R62). -/
def Cmd.words (w : Cmd) : List Word :=
  [w.extractLsb' 96 32, w.extractLsb' 64 32, w.extractLsb' 32 32, w.extractLsb' 0 32]

/-! ### Opcodes (R64) -/

def opAppendbits : Byte := 0x01
def opAppendstr : Byte := 0x02
def opBitlen : Byte := 0x03
def opBytelen : Byte := 0x04
def opTobytes : Byte := 0x05
def opTobytestr : Byte := 0x06
def opHash : Byte := 0x10

/-- The opcode byte of a command (R64). -/
def Instr.opcode : Instr → Byte
  | .appendbits _ _ => opAppendbits
  | .appendstr _ _ => opAppendstr
  | .bitlen => opBitlen
  | .bytelen => opBytelen
  | .tobytes => opTobytes
  | .tobytestr => opTobytestr
  | .hash _ _ _ _ => opHash

/-- One row of the opcode map: `cmd` selects it when `cmd AND mask = match` (R64). -/
structure OpcodeRow where
  mnemonic : String
  pattern : Cmd
  mask : Cmd
deriving DecidableEq, Repr

/-- `cmd AND mask = match` (R64). -/
def Cmd.selects (w : Cmd) (r : OpcodeRow) : Bool := (w &&& r.mask) == r.pattern

/-- The seven rows of R64, in its order, mask and match as it writes them. -/
def opcodeRows : List OpcodeRow :=
  [ { mnemonic := "APPENDBITS", pattern := 0x01000000000000000000000000000000,
      mask := 0xffffffc000000000ffffffffffffffff },
    { mnemonic := "APPENDSTR", pattern := 0x02000000000000000000000000000000,
      mask := 0xffffffff0000000000000000ffffffff },
    { mnemonic := "BITLEN", pattern := 0x03000000000000000000000000000000,
      mask := 0xffffffffffffffffffffffffffffffff },
    { mnemonic := "BYTELEN", pattern := 0x04000000000000000000000000000000,
      mask := 0xffffffffffffffffffffffffffffffff },
    { mnemonic := "TOBYTES", pattern := 0x05000000000000000000000000000000,
      mask := 0xffffffffffffffffffffffffffffffff },
    { mnemonic := "TOBYTESTR", pattern := 0x06000000000000000000000000000000,
      mask := 0xffffffffffffffffffffffffffffffff },
    { mnemonic := "HASH", pattern := 0x10000000000000000000000000000000,
      mask := 0xfffffffe000000000000000000000000 } ]

/-! ### The decoder (R68) -/

/-- Why a word is illegal: the three cases (a), (b), (c) of R66. All three answer the one status
`ILLEGAL_COMMAND` (R203); the names are the model's (entry 7). -/
inductive DecodeError where
  /-- (a): `opcode` is none of the seven. -/
  | unknownOpcode
  /-- (b): a legal opcode with a reserved bit set. -/
  | reservedBits
  /-- (c): `APPENDBITS` with `nbits > 32`. -/
  | nbitsTooLarge
deriving DecidableEq, Repr

/-- A command of format `Z` (R61): every bit below the opcode must be zero. -/
def decodeZ (w : Cmd) (i : Instr) : Except DecodeError Instr :=
  if w.mod = 0 ∧ w.a = 0 ∧ w.b = 0 ∧ w.c = 0 then .ok i else .error .reservedBits

/-- R68, the decoder, total on every 128-bit word. -/
def decode (w : Cmd) : Except DecodeError Instr :=
  if w.opcode = opAppendbits then
    if w.mod.extractLsb' 6 18 = 0 ∧ w.b = 0 ∧ w.c = 0 then
      if (w.mod.extractLsb' 0 6).toNat ≤ 32 then
        .ok (.appendbits w.a (w.mod.extractLsb' 0 6))
      else .error .nbitsTooLarge
    else .error .reservedBits
  else if w.opcode = opAppendstr then
    if w.mod = 0 ∧ w.c = 0 then .ok (.appendstr w.a w.b) else .error .reservedBits
  else if w.opcode = opBitlen then decodeZ w .bitlen
  else if w.opcode = opBytelen then decodeZ w .bytelen
  else if w.opcode = opTobytes then decodeZ w .tobytes
  else if w.opcode = opTobytestr then decodeZ w .tobytestr
  else if w.opcode = opHash then
    if w.mod.extractLsb' 1 23 = 0 then
      .ok (.hash (if w.mod.getLsbD 0 then .big else .little) w.a w.b w.c)
    else .error .reservedBits
  else .error .unknownOpcode

/-! ### The encoder (R68) -/

/-- The `e` bit, `cmd[96]`: 0 little, 1 big (R61). -/
def Endian.bit : Endian → BitVec 1
  | .little => 0
  | .big => 1

/-- R68: each operand in its field and zero everywhere else. -/
def encode : Instr → Cmd
  | .appendbits value nbits => Cmd.ofFields opAppendbits ((0 : BitVec 18) ++ nbits) value 0 0
  | .appendstr off len => Cmd.ofFields opAppendstr 0 off len 0
  | .bitlen => Cmd.ofFields opBitlen 0 0 0 0
  | .bytelen => Cmd.ofFields opBytelen 0 0 0 0
  | .tobytes => Cmd.ofFields opTobytes 0 0 0 0
  | .tobytestr => Cmd.ofFields opTobytestr 0 0 0 0
  | .hash e off n seed => Cmd.ofFields opHash ((0 : BitVec 23) ++ e.bit) off n seed

/-! ### The host's table words -/

/-- The command word whose low `nbits` bits are those of `w`, all higher bits zero. The table numbers
a command's bits as R61 does: bit 127 is the top bit of the opcode (entry 9). -/
def tableCmd (nbits w : Nat) : Cmd := BitVec.ofNat 128 (w % 2 ^ nbits)

/-- What the decoder reads from the table's word `w` of `nbits` bits; a command has exactly 128 bits
(R67), so a longer word is none. -/
def decodeTableWord (nbits w : Nat) : Option Instr :=
  if nbits ≤ 128 then (decode (tableCmd nbits w)).toOption else none

end Sys2Proof
end

