-- ==== Sys2Proof/Config.lean ====
section
/-!
DEFINITION. The two parameters the spec leaves open (00_scope.md R8; 10_state.md R29, R33). They are
plain data carried in `State.cfg`, which no step changes, so that a statement about every state is a
statement about every value of them.
-/
namespace Sys2Proof

/-- The configuration (`BUF_SIZE`, `BITCAP`) of one block (10_state.md R29). -/
structure Config where
  /-- `BUF_SIZE`, the number of bytes of `BUF` (R8, D6). -/
  bufSize : Nat
  /-- `BITCAP`, the largest number of bits `BITSEQ` may hold (R8, D7). -/
  bitCap : Nat
deriving DecidableEq, Repr

/-- The ranges R8 gives the two parameters: `0 <= BUF_SIZE <= 2^32`, `0 <= BITCAP <= 2^32 - 1`. -/
abbrev Config.Ok (c : Config) : Prop := c.bufSize ≤ 2 ^ 32 ∧ c.bitCap ≤ 2 ^ 32 - 1

/-- DESIGN CHOICE (entry 4, unsafe): the parameters of `State.reset`. The spec leaves both open; these
are the values its vectors assume where they name none (95_test_vectors.md, opening). -/
def Config.standard : Config := { bufSize := 4096, bitCap := 2 ^ 32 - 1 }

end Sys2Proof
end

