-- ==== Sys2Proof/Machine/State.lean ====
section
/-!
DEFINITION. The state of the block (10_state.md R29: the pair (`BITSEQ`, `BUF`) with its configuration),
beside it the host's coming actions and the responses emitted (the step's input and output, R33), the
ways a step can stop, and the state after reset. All of it is plain data.
-/
namespace Sys2Proof.Machine

/-- `BUF` as the listed bytes: addresses strictly rising, no listed byte equal to what an unlisted
address reads as (`Memory.unlisted`, Machine/Ops.lean; `Memory.Canonical` there). -/
abbrev Memory := List Host.Cell

/-- The outcome a response reports (30_encoding.md R71). -/
inductive Status where
  /-- The command completed. -/
  | ok
  /-- `value` needs more than `nbits` bits (60_exceptions.md R201). -/
  | rangeError
  /-- The command word is illegal (R203). -/
  | illegalCommand
  /-- The range operand leaves `BUF` (R204). -/
  | bufferRange
  /-- The append would take `BITSEQ` past `BITCAP` (R205). -/
  | capacity
deriving DecidableEq, Repr

/-- One response: the triple (`status`, `val`, `bytes`) of 30_encoding.md R70 with the opcode echo R72
sends beside it. -/
structure Response where
  /-- `opcode_echo = cmd[127:120]` of the command answered (R72). -/
  echo : Byte
  /-- `status` (R71). -/
  status : Status
  /-- `val`, a `u32` (R70). -/
  val : Word
  /-- `bytes`, the payload (R70). -/
  bytes : List Byte
deriving DecidableEq, Repr

/-- What the host does to the block, between commands (70_reset_and_hazards.md R236). Reading a
response changes nothing and is looking at `State.responses` (entry 3). -/
inductive HostAction where
  /-- Issue a command word (30_encoding.md R63). -/
  | command (w : Cmd)
  /-- Write byte `v` of `BUF` at `addr` (20_memory.md R44). -/
  | writeBuf (addr : Nat) (v : Byte)
  /-- Apply reset (70_reset_and_hazards.md R230). -/
  | reset
deriving DecidableEq, Repr

/-- The machine. -/
structure State where
  /-- `BUF_SIZE` and `BITCAP`, which no step changes (10_state.md R29, R33). -/
  cfg : Config
  /-- `BITSEQ`, index 0 the first bit appended (10_state.md R23). -/
  bitseq : List Bool
  /-- `BUF` (10_state.md R27; 20_memory.md R40). -/
  buf : Memory
  /-- The host's actions still to come, oldest first (entry 1). -/
  pending : List HostAction
  /-- The responses emitted, oldest first (entry 3). -/
  responses : List Response
deriving DecidableEq, Repr

/-- Why the machine stops. The block itself never does: its errors are responses (60_exceptions.md
R200). -/
inductive Fault where
  /-- Raised by the step that performs the host's write of a byte at an address outside `BUF`, an
  address that does not exist (20_memory.md R44, R49). Safe: the host has no such move (entry 6). -/
  | hostWriteOutsideBuf
deriving DecidableEq, Repr

/-- Why a command has no meaning here. -/
inductive Refusal where
  /-- Raised by an arm of `exec` whose command has no meaning yet; no arm is left so. Safe. -/
  | notModelled (mnemonic : String)
deriving DecidableEq, Repr

/-- The state right after reset of a block with parameters `cfg` whose `BUF` holds `buf`: `BITSEQ`
empty (10_state.md R30), `BUF` whatever it held (R31), no command outstanding (R230). -/
def State.launch (cfg : Config) (buf : Memory) : State :=
  { cfg := cfg, bitseq := [], buf := buf, pending := [], responses := [] }

/-- The machine right after reset. DESIGN CHOICE (unsafe): the parameters (entry 4) and the contents
of `BUF`, nothing listed (entry 5). -/
def State.reset : State := State.launch Config.standard []

end Sys2Proof.Machine
end

