-- ==== Sys2Proof/Machine/Ops.lean ====
section
/-!
DEFINITION. The named operations over the state: reading and writing `BUF`, growing `BITSEQ`, emitting a
response, `respond` and `raise` (00_scope.md R11; 60_exceptions.md R200), the illegal command, and the
host's own moves (70_reset_and_hazards.md R236).
-/
namespace Sys2Proof.Machine

/-! ### `BUF` -/

/-- What an address of `BUF` that is not listed reads as. DESIGN CHOICE (entry 5, unsafe for claims
about `State.reset` alone): the contents of `BUF` before the host writes it are unspecified
(10_state.md R31), so a claim is made for every `buf`, and any contents can be listed. -/
def Memory.unlisted : Byte := 0

/-- `MemRead(addr, 1)` (20_memory.md R41), the only read there is. -/
def Memory.read : Memory → Nat → Byte
  | [], _ => Memory.unlisted
  | (k, x) :: m, a => if a = k then x else Memory.read m a

/-- The cell of a byte, absent when the byte is what an unlisted address reads as. -/
def Memory.cell (a : Nat) (v : Byte) : Memory := if v = Memory.unlisted then [] else [(a, v)]

/-- The host's write of one byte (20_memory.md R44), in canonical form. -/
def Memory.write : Memory → Nat → Byte → Memory
  | [], a, v => Memory.cell a v
  | (k, x) :: m, a, v =>
    if a < k then Memory.cell a v ++ (k, x) :: m
    else if a = k then Memory.cell a v ++ m
    else (k, x) :: Memory.write m a v

/-- The canonical form: addresses strictly rising, and no entry equal to what an unlisted address
reads as. -/
abbrev Memory.Canonical (m : Memory) : Prop :=
  m.Pairwise (fun x y => x.1 < y.1) ∧ ∀ c ∈ m, c.2 ≠ Memory.unlisted

/-- The canonical form as a test. -/
def Memory.wf (m : Memory) : Bool := decide (Memory.Canonical m)

/-- The bytes `BUF[off] .. BUF[off + n - 1]`, in address order (20_memory.md R48, R54). -/
def Memory.range (m : Memory) (off n : Nat) : List Byte :=
  (List.range n).map fun i => Memory.read m (off + i)

/-! ### Ending a command -/

/-- Emit one response (30_encoding.md R63). -/
def State.emit (r : Response) (s : State) : State := { s with responses := s.responses ++ [r] }

/-- `BITSEQ <- BITSEQ ++ new`, the only write to `BITSEQ` a command makes (10_state.md R23). -/
def State.append (new : List Bool) (s : State) : State := { s with bitseq := s.bitseq ++ new }

/-- `respond(val, bytes)`: end the command with status `OK` (00_scope.md R11). -/
def respond (echo : Byte) (val : Word) (bytes : List Byte) (s : State) :
    Host.Outcome State Fault Refusal :=
  .next (s.emit { echo := echo, status := .ok, val := val, bytes := bytes })

/-- `raise E`: end the command with error status `E`, `val = 0` and no bytes, no state written
(00_scope.md R11; 60_exceptions.md R200). This is the whole of taking an exception here (R211), and
there is nothing to return from (R212). -/
def raise (echo : Byte) (status : Status) (s : State) : Host.Outcome State Fault Refusal :=
  .next (s.emit { echo := echo, status := status, val := 0, bytes := [] })

/-- A word that decodes to no command raises `ILLEGAL_COMMAND` (60_exceptions.md R203) under the echo
of its own opcode byte, whatever that is (30_encoding.md R72). -/
def illegalCommand (w : Cmd) (s : State) : Host.Outcome State Fault Refusal :=
  raise w.opcode .illegalCommand s

/-! ### The host's moves -/

/-- The host's next action, taken from the queue; none when the host does nothing. -/
def State.takeAction (s : State) : Option (HostAction × State) :=
  match s.pending with
  | [] => none
  | a :: rest => some (a, { s with pending := rest })

/-- The host writes byte `v` at `addr` (20_memory.md R44); an address outside `BUF` does not exist
(R49; entry 6). -/
def hostWrite (addr : Nat) (v : Byte) (s : State) : Host.Outcome State Fault Refusal :=
  if addr < s.cfg.bufSize then .next { s with buf := Memory.write s.buf addr v }
  else .fault .hostWriteOutsideBuf

/-- Reset: its whole effect is `BITSEQ <- []` (70_reset_and_hazards.md R230). -/
def hostReset (s : State) : Host.Outcome State Fault Refusal := .next { s with bitseq := [] }

/-- The block with no command outstanding waits for one (70_reset_and_hazards.md R230; entry 2). -/
def idle (s : State) : Host.Outcome State Fault Refusal := .next s

end Sys2Proof.Machine
end

