-- ==== Sys2Proof/Machine/Flags.lean ====
section
/-!
DEFINITION. The block has no flags (10_state.md R25); what decides a command's outcome are the checks
below, one for each error of 60_exceptions.md, made on natural numbers without wrap-around.
-/
namespace Sys2Proof.Machine

/-- `RANGE_ERROR`: `(value >> nbits) != 0` (60_exceptions.md R201). -/
def valueTooWide (value : Word) (nbits : Nat) : Bool := value >>> nbits != 0

/-- `BUFFER_RANGE`: `off + length > BUF_SIZE` (20_memory.md R42; 60_exceptions.md R204). -/
def rangeLeavesBuf (s : State) (off length : Nat) : Bool := decide (s.cfg.bufSize < off + length)

/-- `CAPACITY`: appending `width` bits would take `len(BITSEQ)` past `BITCAP` (60_exceptions.md
R205). -/
def passesCapacity (s : State) (width : Nat) : Bool :=
  decide (s.cfg.bitCap < s.bitseq.length + width)

end Sys2Proof.Machine
end

