-- ==== Sys2Proof/Machine/Operands.lean ====
section
/-!
DEFINITION. What a command makes of its operands: the bits of a number, the bits of a byte range, the word
fetched from four bytes (41_bitstream_encoder.md R101, R104; 20_memory.md R45).
-/
namespace Sys2Proof.Machine

/-- `bits_msb(v, w)`: the `w` low-order bits of `v`, most significant first (41_bitstream_encoder.md
R101). -/
def bitsMsb (v : Nat) : Nat → List Bool
  | 0 => []
  | w + 1 => v.testBit w :: bitsMsb v w

/-- The bits of a string, eight for each byte in order (41_bitstream_encoder.md R104). -/
def stringBits (s : List Byte) : List Bool := s.flatMap fun x => bitsMsb x.toNat 8

/-- `fetch32(b0, b1, b2, b3, e)` (20_memory.md R45): the one place byte order enters. -/
def fetch32 (b0 b1 b2 b3 : Byte) : Endian → Word
  | .little =>
    b0.setWidth 32 ||| b1.setWidth 32 <<< 8 ||| b2.setWidth 32 <<< 16 ||| b3.setWidth 32 <<< 24
  | .big =>
    b0.setWidth 32 <<< 24 ||| b1.setWidth 32 <<< 16 ||| b2.setWidth 32 <<< 8 ||| b3.setWidth 32

end Sys2Proof.Machine
end

