-- ==== Sys2Proof/Machine/Encoder.lean ====
section
/-!
DEFINITION. The commands of the encoder unit `ENC` (41_bitstream_encoder.md R100 to R111), one meaning each.
The checks stand in the order of 60_exceptions.md R207, all of them before any write.
-/
namespace Sys2Proof.Machine

/-- `APPENDBITS value, nbits` (41_bitstream_encoder.md R100). A term with `nbits > 32` is no command;
the decoder refuses its word, and it answers here as that word does (30_encoding.md R66; entry 8). -/
def execAppendbits (value : Word) (nbits : BitVec 6) (s : State) :
    Host.Outcome State Fault Refusal :=
  if 32 < nbits.toNat then raise opAppendbits .illegalCommand s
  else if valueTooWide value nbits.toNat then raise opAppendbits .rangeError s
  else if passesCapacity s nbits.toNat then raise opAppendbits .capacity s
  else respond opAppendbits 0 [] (s.append (bitsMsb value.toNat nbits.toNat))

/-- `APPENDSTR off, len` (41_bitstream_encoder.md R104). -/
def execAppendstr (off len : Word) (s : State) : Host.Outcome State Fault Refusal :=
  if rangeLeavesBuf s off.toNat len.toNat then raise opAppendstr .bufferRange s
  else if passesCapacity s (8 * len.toNat) then raise opAppendstr .capacity s
  else respond opAppendstr 0 [] (s.append (stringBits (Memory.range s.buf off.toNat len.toNat)))

/-- `ceil(L / 8)` (41_bitstream_encoder.md R109). -/
def byteCount (bits : Nat) : Nat := (bits + 7) / 8

/-- `bit(p)` of R110: bit `p` of the sequence, 0 past its end, as a byte. -/
def bitOrPad (bits : List Bool) (p : Nat) : Byte := if bits.getD p false then 1 else 0

/-- `out[j]` of R110: bits `8j .. 8j+7`, the first the most significant. -/
def packByte (bits : List Bool) (j : Nat) : Byte :=
  bitOrPad bits (8 * j) <<< 7 ||| bitOrPad bits (8 * j + 1) <<< 6 |||
  bitOrPad bits (8 * j + 2) <<< 5 ||| bitOrPad bits (8 * j + 3) <<< 4 |||
  bitOrPad bits (8 * j + 4) <<< 3 ||| bitOrPad bits (8 * j + 5) <<< 2 |||
  bitOrPad bits (8 * j + 6) <<< 1 ||| bitOrPad bits (8 * j + 7)

/-- The bytes of the sequence, the last zero-padded at its low end (41_bitstream_encoder.md R110). -/
def packBytes (bits : List Bool) : List Byte :=
  (List.range (byteCount bits.length)).map (packByte bits)

/-- A natural number as the `val` of a response. It fits when `len(BITSEQ) <= BITCAP <= 2^32 - 1`
(30_encoding.md R70); entry 11 for the states no run reaches. -/
def valOf (n : Nat) : Word := BitVec.ofNat 32 n

/-- `BITLEN` (41_bitstream_encoder.md R108). -/
def execBitlen (s : State) : Host.Outcome State Fault Refusal :=
  respond opBitlen (valOf s.bitseq.length) [] s

/-- `BYTELEN` (41_bitstream_encoder.md R109). -/
def execBytelen (s : State) : Host.Outcome State Fault Refusal :=
  respond opBytelen (valOf (byteCount s.bitseq.length)) [] s

/-- `TOBYTES` (41_bitstream_encoder.md R110). -/
def execTobytes (s : State) : Host.Outcome State Fault Refusal :=
  respond opTobytes (valOf (byteCount s.bitseq.length)) (packBytes s.bitseq) s

/-- `TOBYTESTR` (41_bitstream_encoder.md R111): `val` and bytes as `TOBYTES`, its own echo. -/
def execTobytestr (s : State) : Host.Outcome State Fault Refusal :=
  respond opTobytestr (valOf (byteCount s.bitseq.length)) (packBytes s.bitseq) s

end Sys2Proof.Machine
end

