-- ==== Sys2Proof/Machine/Hasher.lean ====
section
/-!
DEFINITION. The command of the hasher unit `HSH`: the five steps of `hashBytes` as functions and `HASH`
itself (42_byte_block_hasher.md R130 to R136). The unit keeps nothing between commands (10_state.md R28).
The literals are the spec's, taken as written (00_scope.md R7; entry 13).
-/
namespace Sys2Proof.Machine

/-- `M = 0x5bd1e995`, the multiplier of every mixing multiply (00_scope.md R7). -/
def mixM : Word := 0x5bd1e995

/-- `mul32(a, b) = (a * b) mod 2^32` (00_scope.md R10). -/
def mul32 (a b : Word) : Word := BitVec.ofNat 32 (a.toNat * b.toNat)

/-- Step 1: `h0(seed, n) = seed XOR n` (42_byte_block_hasher.md R131). -/
def seedHash (seed n : Word) : Word := seed ^^^ n

/-- Step 2: mixing the word `k`, with `R = 24` (R133). -/
def mixk (k : Word) : Word :=
  let k1 := mul32 k mixM
  mul32 (k1 ^^^ k1 >>> 24) mixM

/-- Step 2: mixing the word into the accumulator, the multiply of `h` first (R134). -/
def mixh (h k : Word) : Word := mul32 h mixM ^^^ mixk k

/-- The working values of one `HASH` (10_state.md R22), created by it and gone with it; `k` is local
to a turn. `cur` and the bytes remaining are natural numbers (42_byte_block_hasher.md R137). -/
structure HashWork where
  /-- The accumulator. -/
  h : Word
  /-- The buffer address of the next unread byte. -/
  cur : Nat
  /-- The bytes not yet consumed. -/
  rem : Nat
deriving DecidableEq, Repr

/-- The word at `addr` as a turn fetches it (R132). -/
def fetchWord (m : Memory) (e : Endian) (addr : Nat) : Word :=
  fetch32 (Memory.read m addr) (Memory.read m (addr + 1)) (Memory.read m (addr + 2))
    (Memory.read m (addr + 3)) e

/-- One turn of the loop of step 2 (R130, R134). -/
def hashTurn (m : Memory) (e : Endian) (w : HashWork) : HashWork :=
  { h := mixh w.h (fetchWord m e w.cur), cur := w.cur + 4, rem := w.rem - 4 }

/-- `while rem >= 4`, with a bound on the number of turns (R134: `floor(n / 4)` turns end it). -/
def hashLoop (m : Memory) (e : Endian) : Nat → HashWork → HashWork
  | 0, w => w
  | turns + 1, w => if 4 ≤ w.rem then hashLoop m e turns (hashTurn m e w) else w

/-- Step 3, the tail: three conditions one after another, not exclusive; `byte[i] = BUF[cur + i]`
(R135). It does not depend on `e` (20_memory.md R46). -/
def hashTail (m : Memory) (w : HashWork) : Word :=
  let h3 := if 3 ≤ w.rem then w.h ^^^ (Memory.read m (w.cur + 2)).setWidth 32 <<< 16 else w.h
  let h2 := if 2 ≤ w.rem then h3 ^^^ (Memory.read m (w.cur + 1)).setWidth 32 <<< 8 else h3
  if 1 ≤ w.rem then mul32 (h2 ^^^ (Memory.read m w.cur).setWidth 32) mixM else h2

/-- Step 4, finalization, with the shifts 13 and 15 (R136). -/
def fmix (h : Word) : Word :=
  let h1 := h ^^^ h >>> 13
  let h2 := mul32 h1 mixM
  h2 ^^^ h2 >>> 15

/-- The working values after step 1 (R130, R131). -/
def hashStart (off n : Nat) (seed : Word) : HashWork :=
  { h := seedHash seed (BitVec.ofNat 32 n), cur := off, rem := n }

/-- Steps 1 to 4 over `BUF[off] .. BUF[off + n - 1]` (R130). -/
def hashBytes (m : Memory) (e : Endian) (off n : Nat) (seed : Word) : Word :=
  fmix (hashTail m (hashLoop m e (n / 4) (hashStart off n seed)))

/-- `HASH.e off, n, seed` (42_byte_block_hasher.md R130). -/
def execHash (e : Endian) (off n seed : Word) (s : State) : Host.Outcome State Fault Refusal :=
  if rangeLeavesBuf s off.toNat n.toNat then raise opHash .bufferRange s
  else respond opHash (hashBytes s.buf e off.toNat n.toNat seed) [] s

end Sys2Proof.Machine
end

