-- ==== Sys2Proof/Machine/Dispatch.lean ====
section
/-! DEFINITION. One arm for each command (30_encoding.md R60), each a direct call of its meaning. -/
namespace Sys2Proof.Machine

def exec (i : Instr) (s : State) : Host.Outcome State Fault Refusal :=
  match i with
  | .appendbits value nbits => Sys2Proof.Machine.execAppendbits value nbits s
  | .appendstr off len => Sys2Proof.Machine.execAppendstr off len s
  | .bitlen => Sys2Proof.Machine.execBitlen s
  | .bytelen => Sys2Proof.Machine.execBytelen s
  | .tobytes => Sys2Proof.Machine.execTobytes s
  | .tobytestr => Sys2Proof.Machine.execTobytestr s
  | .hash e off n seed => Sys2Proof.Machine.execHash e off n seed s

end Sys2Proof.Machine
end

