-- ==== Sys2Proof/Machine/Step.lean ====
section
/-!
DEFINITION. One step: the host's next action, performed whole (00_scope.md R6; 30_encoding.md R63;
70_reset_and_hazards.md R236). A command is decoded and then performed on the state in which it is no
longer outstanding.
-/
namespace Sys2Proof.Machine

def step (s : State) : Host.Outcome State Fault Refusal :=
  match s.takeAction with
  | none => idle s
  | some (.command w, s') =>
    match decode w with
    | .ok i => exec i s'
    | .error _ => illegalCommand w s'
  | some (.writeBuf addr v, s') => hostWrite addr v s'
  | some (.reset, s') => hostReset s'

/-- `s` with the table's word `w` issued by the host as its very next action (entry 9). -/
def State.withFetchWord (s : State) (nbits w : Nat) : State :=
  { s with pending := .command (tableCmd nbits w) :: s.pending }

end Sys2Proof.Machine
end

