-- ==== Sys2Proof/Machine/Assembler.lean ====
section
/-!
DEFINITION. The assembler syntax of 30_encoding.md R74, one line at a time, on characters: a mnemonic, its
operands separated by commas, `;` to the end of the line a comment; and the form `.buf addr: b0 b1 ...`
of the spec's test programs, which is no command. There are no pseudo-instructions (R75). The points of
spelling R74 leaves open are in entry 15.
-/
namespace Sys2Proof.Machine

/-- What one line says. -/
inductive AsmLine where
  /-- Nothing: an empty line, or a comment alone. -/
  | blank
  /-- One command. -/
  | command (i : Instr)
  /-- `BUF[addr], BUF[addr + 1], ...` hold those bytes before the program starts. -/
  | bufBytes (addr : Nat) (bytes : List Byte)
deriving DecidableEq, Repr

def isBlank (ch : Char) : Bool := ch == ' ' || ch == '\t'

/-- The line without blanks at its two ends. -/
def trimBlanks (cs : List Char) : List Char :=
  ((cs.dropWhile isBlank).reverse.dropWhile isBlank).reverse

/-- `;` to the end of the line is a comment (R74). -/
def dropComment (cs : List Char) : List Char := cs.takeWhile (· != ';')

/-- The pieces of a line between the characters `sep` marks. -/
def splitAtSep (sep : Char → Bool) : List Char → List (List Char)
  | [] => [[]]
  | ch :: cs =>
    match splitAtSep sep cs with
    | [] => [[]]
    | p :: ps => if sep ch then [] :: p :: ps else (ch :: p) :: ps

/-- The value of a digit of base at most 16. -/
def digitValue (base : Nat) (ch : Char) : Option Nat :=
  let v :=
    if '0' ≤ ch ∧ ch ≤ '9' then some (ch.toNat - '0'.toNat)
    else if 'a' ≤ ch ∧ ch ≤ 'f' then some (ch.toNat - 'a'.toNat + 10)
    else if 'A' ≤ ch ∧ ch ≤ 'F' then some (ch.toNat - 'A'.toNat + 10)
    else none
  v.filter (· < base)

/-- One or more digits, the most significant first. -/
def parseDigits (base : Nat) : List Char → Option Nat
  | [] => none
  | ch :: cs => go cs (digitValue base ch)
where
  go : List Char → Option Nat → Option Nat
    | [], acc => acc
    | _ :: _, none => none
    | ch :: cs, some acc => go cs ((digitValue base ch).map (acc * base + ·))

/-- A number in decimal, `0x` hexadecimal or `0b` binary (R74). -/
def parseNumber : List Char → Option Nat
  | '0' :: 'x' :: cs => parseDigits 16 cs
  | '0' :: 'b' :: cs => parseDigits 2 cs
  | cs => parseDigits 10 cs

/-- An operand as a `u32` (R60). -/
def toOperand (v : Nat) : Option Word := if v < 2 ^ 32 then some (BitVec.ofNat 32 v) else none

/-- The command a mnemonic and its operands spell (R74); the suffix of `HASH` is mandatory. -/
def spelledCommand (mnemonic : String) (operands : List Nat) : Option Instr :=
  match operands with
  | [] =>
    if mnemonic = "BITLEN" then some .bitlen
    else if mnemonic = "BYTELEN" then some .bytelen
    else if mnemonic = "TOBYTES" then some .tobytes
    else if mnemonic = "TOBYTESTR" then some .tobytestr
    else none
  | [x, y] => do
    let a ← toOperand x
    if mnemonic = "APPENDBITS" then
      if y ≤ 32 then some (.appendbits a (BitVec.ofNat 6 y)) else none
    else if mnemonic = "APPENDSTR" then some (.appendstr a (← toOperand y))
    else none
  | [x, y, z] => do
    let a ← toOperand x
    let b ← toOperand y
    let c ← toOperand z
    if mnemonic = "HASH.LE" then some (.hash .little a b c)
    else if mnemonic = "HASH.BE" then some (.hash .big a b c)
    else none
  | _ => none

/-- The operand list after the mnemonic. -/
def parseOperands (cs : List Char) : Option (List Nat) :=
  if trimBlanks cs = [] then some []
  else (splitAtSep (· == ',') cs).mapM fun p => parseNumber (trimBlanks p)

/-- A byte of the `.buf` form: hexadecimal digits with no `0x`, as the spec's programs write it. -/
def parseByte (cs : List Char) : Option Byte := do
  let v ← parseDigits 16 cs
  if v < 2 ^ 8 then some (BitVec.ofNat 8 v) else none

/-- `.buf addr: b0 b1 ...`, what stands after `.buf`. -/
def parseBuf (cs : List Char) : Option AsmLine :=
  match splitAtSep (· == ':') cs with
  | [addr, bytes] => do
    let a ← parseNumber (trimBlanks addr)
    let bs ← ((splitAtSep isBlank bytes).filter (· ≠ [])).mapM parseByte
    some (.bufBytes a bs)
  | _ => none

/-- One line of the spec's assembler text (R74); none when it spells nothing. -/
def parseLine (line : List Char) : Option AsmLine :=
  let body := trimBlanks (dropComment line)
  let mnemonic := body.takeWhile (fun ch => !isBlank ch)
  let rest := body.dropWhile (fun ch => !isBlank ch)
  if body = [] then some .blank
  else if mnemonic = ['.', 'b', 'u', 'f'] then parseBuf rest
  else do
    let operands ← parseOperands rest
    let i ← spelledCommand (String.ofList mnemonic) operands
    some (.command i)

end Sys2Proof.Machine
end

