-- ==== Sys2Proof/Machine/HostSoftware.lean ====
section
/-!
DEFINITION. The software the spec describes around the block (43_host_software.md R160 to R170): outside the
hardware (00_scope.md R4), no state and no command of the block, written down so that nothing the spec
describes is lost. A host's `HASH.e(off, n, seed)` is the `val` of that command's response, `hashBytes`
over `BUF`; the string `x` of `len` bytes sits in `BUF` from `base` (entry 14).
-/
namespace Sys2Proof.Machine

/-- The 16-bit truncation of the two string hashers (43_host_software.md R170). -/
def truncate16 (trunc : Bool) (res : Word) : Word := if trunc then res &&& 0xffff else res

/-- `seed' = seed XOR length(x)` (R161, R162, R167). DESIGN CHOICE (entry 18): the length is taken modulo
2^32, which settles a string of 2^32 bytes, for which the spec gives no `u32` (92_eei_decisions.md D4). -/
def derivedSeed (seed : Word) (len : Nat) : Word := seed ^^^ BitVec.ofNat 32 len

/-- `skip` of the long path (R162). -/
def denseSkip (len : Nat) : Nat := if len ≤ 262144 then 16 * 256 + 256 else 256 * 256 + 256

/-- The loop of the long path (R162), with a bound on its turns: `off` grows in every turn, so `len`
turns end it. The block seed is `seed'`, the spec's reading (D34; entry 14). -/
def denseBlocks (m : Memory) (e : Endian) (base len : Nat) (seed' : Word) : Nat → Nat → Word → Word
  | 0, _, res => res
  | turns + 1, off, res =>
    if off < len then
      denseBlocks m e base len seed' turns (off + denseSkip len)
        (res ^^^ hashBytes m e (base + off) (min 256 (len - off)) seed')
    else res

/-- StringHasher, dense variant (R160 to R164). The long path is unconfirmed against the runtime it
mirrors (R163; entry 14). -/
def denseHash (m : Memory) (e : Endian) (base len : Nat) (seed : Word) (trunc : Bool) : Word :=
  let seed' := derivedSeed seed len
  truncate16 trunc <|
    if len ≤ 4096 then hashBytes m e base len seed'
    else
      let res := hashBytes m e base 4096 seed'
      denseBlocks m e base len seed' len (4096 + denseSkip len * (res.toNat % 256) / 256) res

/-- The loop of the sparse variant (R167), with a bound on its turns: `off` falls by `step >= 1`. -/
def sparseLoop (m : Memory) (base step : Nat) : Nat → Nat → Word → Word
  | 0, _, res => res
  | turns + 1, off, res =>
    if step ≤ off then
      sparseLoop m base step turns (off - step)
        (mul32 res 33 + (Memory.read m (base + (off - 1))).setWidth 32)
    else res

/-- StringHasher, sparse variant (R166 to R168): it issues no command to the block. -/
def sparseHash (m : Memory) (base len : Nat) (seed : Word) (trunc : Bool) : Word :=
  truncate16 trunc (sparseLoop m base (len / 32 + 1) len len (derivedSeed seed len))

/-- CodepointCounter (R169): the bytes `b` with `b < 0x80 OR b >= 0xC0`. -/
def codepointCount (x : List Byte) : Nat :=
  x.countP fun b => decide (b.toNat < 0x80) || decide (0xC0 ≤ b.toNat)

end Sys2Proof.Machine
end

