-- ==== Sys2Proof/Machine/ResponseWords.lean ====
section
/-!
DEFINITION. The response as the host receives it: a sequence of 32-bit words (30_encoding.md R71, R72).
-/
namespace Sys2Proof.Machine

/-- The status codes (30_encoding.md R71). -/
def Status.code : Status → Byte
  | .ok => 0
  | .rangeError => 1
  | .illegalCommand => 2
  | .bufferRange => 3
  | .capacity => 4

/-- `R0 = {opcode_echo, 0x0000, status_code}` (R72). -/
def Response.headWord (r : Response) : Word := r.echo ++ (0 : BitVec 16) ++ r.status.code

/-- `Pj`: four payload bytes, the first the most significant, a byte past the end reading as `0x00`
(R72). -/
def payloadWord (bytes : List Byte) (j : Nat) : Word :=
  bytes.getD (4 * j) 0 ++ bytes.getD (4 * j + 1) 0 ++ bytes.getD (4 * j + 2) 0 ++
    bytes.getD (4 * j + 3) 0

/-- `P0, P1, ...`: `ceil(len(bytes) / 4)` words (R72). -/
def payloadWords (bytes : List Byte) : List Word :=
  (List.range ((bytes.length + 3) / 4)).map (payloadWord bytes)

/-- `R0, R1, P0, P1, ...` (R72). -/
def Response.words (r : Response) : List Word := r.headWord :: r.val :: payloadWords r.bytes

end Sys2Proof.Machine
end

