-- ==== Sys2Proof/Safety.lean ====
section
/-!
DEFINITION. The terms claims are stated in: what holds of every state a run reaches (`State.Inv`), and what
a host that keeps to its moves gives the block (`State.HostInRange`).
-/
namespace Sys2Proof.Machine

/-- What 30_encoding.md R70 says of a response by itself, whatever `BITSEQ` and `BUF` were: an error
carries `val = 0` and no bytes; an append carries `val = 0`; only `TOBYTES` and `TOBYTESTR` carry bytes,
and then `val` is their number. -/
abbrev Response.Ok (r : Response) : Prop :=
  (r.status ≠ .ok → r.val = 0 ∧ r.bytes = []) ∧
  (r.echo = opAppendbits ∨ r.echo = opAppendstr → r.val = 0) ∧
  (r.echo ≠ opTobytes → r.echo ≠ opTobytestr → r.bytes = []) ∧
  (r.echo = opTobytes ∨ r.echo = opTobytestr → r.val.toNat = r.bytes.length)

/-- What every reachable state has: the parameters in the ranges of 00_scope.md R8, `BUF` in canonical
form (the model's, entry 5) and inside `0 .. BUF_SIZE - 1` (20_memory.md R40), `BITSEQ` within `BITCAP`
(10_state.md R23), and every response of the form `Response.Ok` takes from 30_encoding.md R70. -/
structure State.Inv (s : State) : Prop where
  cfg : s.cfg.Ok
  buf : Memory.wf s.buf = true
  bufInside : ∀ c ∈ s.buf, c.1 < s.cfg.bufSize
  capacity : s.bitseq.length ≤ s.cfg.bitCap
  responses : ∀ r ∈ s.responses, r.Ok

/-- The host's coming writes all name addresses of `BUF` (20_memory.md R44). -/
abbrev State.HostInRange (s : State) : Prop :=
  ∀ addr v, HostAction.writeBuf addr v ∈ s.pending → addr < s.cfg.bufSize

end Sys2Proof.Machine
end

