-- ==== Sys2Proof/Certificates/Slice0/Obligations.lean ====
section
/-!
DEFINITION. The statements about the block, one for each rule or group of rules of spec/ it formalises.
The functions under Sys2Proof.Claims say the spec's results a second time, in other words than the model's
own definitions, so that a statement compares two readings of the rule.
-/

open Sys2Proof Sys2Proof.Machine

/-! ### Terms of the statements -/

/-- The response of a command that completes (30_encoding.md R70). -/
abbrev Sys2Proof.Claims.done (i : Instr) (val : Word) (bytes : List Byte) : Response :=
  { echo := i.opcode, status := .ok, val := val, bytes := bytes }

/-- The response of a command that fails with status `st` (30_encoding.md R70, 60_exceptions.md R200). -/
abbrev Sys2Proof.Claims.failed (i : Instr) (st : Status) : Response :=
  { echo := i.opcode, status := st, val := 0, bytes := [] }

/-- `s` with one more response and nothing else changed. -/
abbrev Sys2Proof.Claims.answered (s : State) (r : Response) : State :=
  { s with responses := s.responses ++ [r] }

/-- The loop and the tail of `HASH` over a list of bytes (42_byte_block_hasher.md R130), by recursion
on the bytes: four at a time, then the one, two or three left. -/
def Sys2Proof.Claims.mixBytes (e : Endian) : Word → List Byte → Word
  | h, b0 :: b1 :: b2 :: b3 :: rest =>
    let k : Word := match e with
      | .little => b3 ++ b2 ++ b1 ++ b0
      | .big => b0 ++ b1 ++ b2 ++ b3
    let k1 := k * 0x5bd1e995
    mixBytes e (h * 0x5bd1e995 ^^^ (k1 ^^^ k1 >>> 24) * 0x5bd1e995) rest
  | h, [b0, b1, b2] => (h ^^^ ((0 : Byte) ++ b2 ++ b1 ++ b0)) * 0x5bd1e995
  | h, [b0, b1] => (h ^^^ ((0 : BitVec 16) ++ b1 ++ b0)) * 0x5bd1e995
  | h, [b0] => (h ^^^ ((0 : BitVec 24) ++ b0)) * 0x5bd1e995
  | h, [] => h

/-- Finalization (42_byte_block_hasher.md R136). -/
def Sys2Proof.Claims.finalize (h : Word) : Word :=
  let h2 := (h ^^^ h >>> 13) * 0x5bd1e995
  h2 ^^^ h2 >>> 15

/-- The hash of a list of bytes (42_byte_block_hasher.md R130). -/
def Sys2Proof.Claims.murmur (e : Endian) (seed : Word) (bytes : List Byte) : Word :=
  Claims.finalize (Claims.mixBytes e (seed ^^^ BitVec.ofNat 32 bytes.length) bytes)

/-- The bytes `BUF[off] .. BUF[off + n - 1]` (20_memory.md R40). -/
def Sys2Proof.Claims.bytesAt (s : State) (off n : Nat) : List Byte :=
  (List.range n).map fun i => Memory.read s.buf (off + i)

/-- Commands performed one after another (30_encoding.md R63). -/
def Sys2Proof.Claims.performAll : List Instr → State → Host.Outcome State Fault Refusal
  | [], s => .next s
  | i :: is, s =>
    match exec i s with
    | .next t => performAll is t
    | .fault f => .fault f
    | .refused r => .refused r

/-- The opcode bytes of the command words among the host's actions, in order. -/
def Sys2Proof.Claims.opcodes (actions : List HostAction) : List Byte :=
  actions.filterMap fun a => match a with
    | .command w => some w.opcode
    | .writeBuf _ _ => none
    | .reset => none

/-- How many bits a command word appends when its response has this status (41_bitstream_encoder.md
R100, R104). -/
def Sys2Proof.Claims.appendedBits (w : Cmd) (st : Status) : Nat :=
  match st, decode w with
  | .ok, .ok (.appendbits _ nbits) => nbits.toNat
  | .ok, .ok (.appendstr _ len) => 8 * len.toNat
  | _, _ => 0

/-- The host actions that can change `BITSEQ` or `BUF`: the two appends, the writes of `BUF`, reset. -/
def Sys2Proof.Claims.matters (a : HostAction) : Bool :=
  match a with
  | .command w =>
    match decode w with
    | .ok (.appendbits _ _) => true
    | .ok (.appendstr _ _) => true
    | _ => false
  | .writeBuf _ _ => true
  | .reset => true

/-! ### Reset and the host's moves -/

/-- 10_state.md R30: after reset `BITSEQ` is empty, so `BITLEN` and `BYTELEN` answer 0 and `TOBYTES`
answers no bytes; no command brings it back to empty, reset does, and no other step does: not an illegal
word, not a host write, not an idle step. -/
def Obligations.ResetLeavesTheEmptySequence : Prop :=
  (∀ (cfg : Config) (buf : Memory), let s := State.launch cfg buf
    s.bitseq = [] ∧
    exec .bitlen s = .next (Claims.answered s (Claims.done .bitlen 0 [])) ∧
    exec .bytelen s = .next (Claims.answered s (Claims.done .bytelen 0 [])) ∧
    exec .tobytes s = .next (Claims.answered s (Claims.done .tobytes 0 []))) ∧
  State.reset.bitseq = [] ∧
  (∀ (i : Instr) (s t : State), exec i s = .next t → s.bitseq ≠ [] → t.bitseq ≠ []) ∧
  (∀ s t : State, step s = .next t → s.bitseq ≠ [] → t.bitseq = [] →
    s.pending.head? = some .reset) ∧
  (∀ (s t : State) (rest : List HostAction), s.pending = .reset :: rest → step s = .next t →
    t.bitseq = [])

/-- 70_reset_and_hazards.md R230: the whole effect of reset is `BITSEQ <- []`. -/
def Obligations.ResetEmptiesOnlyTheSequence : Prop :=
  ∀ (s : State) (rest : List HostAction), s.pending = .reset :: rest →
    step s = .next { s with pending := rest, bitseq := [] }

/-- 20_memory.md R44: a host write changes the byte it names and nothing else. The canonical form is
the model's (entry 5). -/
def Obligations.HostWriteChangesOneByte : Prop :=
  ∀ (s : State) (rest : List HostAction) (addr : Nat) (v : Byte),
    s.pending = .writeBuf addr v :: rest → Memory.wf s.buf = true → addr < s.cfg.bufSize →
    ∃ t, step s = .next t ∧ t.cfg = s.cfg ∧ t.bitseq = s.bitseq ∧ t.pending = rest ∧
      t.responses = s.responses ∧
      ∀ a, Memory.read t.buf a = if a = addr then v else Memory.read s.buf a

/-- The model's choice (entry 6): a host write at an address that does not exist stops the machine. -/
def Obligations.HostWriteOutsideBufFaults : Prop :=
  ∀ (s : State) (rest : List HostAction) (addr : Nat) (v : Byte),
    s.pending = .writeBuf addr v :: rest → s.cfg.bufSize ≤ addr →
    step s = .fault .hostWriteOutsideBuf

/-- 70_reset_and_hazards.md R230: with no command outstanding the block waits (entry 2: the model's
step is then the state itself). -/
def Obligations.IdleBlockWaits : Prop :=
  ∀ s : State, s.pending = [] → step s = .next s

/-- 30_encoding.md R63: a legal word is decoded and its command performed, on the state in which it is
no longer outstanding. -/
def Obligations.StepRunsTheDecodedCommand : Prop :=
  ∀ (s : State) (w : Cmd) (rest : List HostAction) (i : Instr),
    s.pending = .command w :: rest → decode w = .ok i → step s = exec i { s with pending := rest }

/-! ### Encoding -/

/-- 30_encoding.md R62: the four transport words, `W0` first, and what each holds. -/
def Obligations.TransportWordsCarryTheCommand : Prop :=
  (∀ w : Cmd, ∃ w0 w1 w2 w3 : Word, w.words = [w0, w1, w2, w3] ∧ Cmd.ofWords w0 w1 w2 w3 = w ∧
    w0 = w.opcode ++ w.mod ∧ w1 = w.a ∧ w2 = w.b ∧ w3 = w.c) ∧
  (∀ w0 w1 w2 w3 : Word, (Cmd.ofWords w0 w1 w2 w3).words = [w0, w1, w2, w3]) ∧
  (encode (.hash .big 0 3 3)).words = [0x10000001, 0x00000000, 0x00000003, 0x00000003]

/-- 30_encoding.md R64: no word selects two rows of the opcode map. -/
def Obligations.OpcodeRowsAreDisjoint : Prop :=
  ∀ (w : Cmd) (r r' : OpcodeRow), r ∈ opcodeRows → r' ∈ opcodeRows → w.selects r = true →
    w.selects r' = true → r = r'

/-- 30_encoding.md R64, R66: a word is legal exactly when it selects a row of the opcode map and, for
the `APPENDBITS` row, its `nbits` field is at most 32. -/
def Obligations.LegalWordsAreTheRowsOfTheMap : Prop :=
  ∀ w : Cmd, (∃ i, decode w = .ok i) ↔
    ∃ r ∈ opcodeRows, w.selects r = true ∧
      (r.mnemonic = "APPENDBITS" → (w.extractLsb' 96 6).toNat ≤ 32)

/-- 30_encoding.md R68: the decoder by the five fields of the word, in the order of its lines. -/
def Obligations.DecoderReadsTheFields : Prop :=
  ∀ (op : Byte) (md : BitVec 24) (a b c : Word),
    (decode (Cmd.ofFields op md a b c)).toOption =
      if op = 0x01 ∧ md.toNat / 64 = 0 ∧ md.toNat % 64 ≤ 32 ∧ b = 0 ∧ c = 0 then
        some (.appendbits a (BitVec.ofNat 6 (md.toNat % 64)))
      else if op = 0x02 ∧ md = 0 ∧ c = 0 then some (.appendstr a b)
      else if op = 0x03 ∧ md = 0 ∧ a = 0 ∧ b = 0 ∧ c = 0 then some .bitlen
      else if op = 0x04 ∧ md = 0 ∧ a = 0 ∧ b = 0 ∧ c = 0 then some .bytelen
      else if op = 0x05 ∧ md = 0 ∧ a = 0 ∧ b = 0 ∧ c = 0 then some .tobytes
      else if op = 0x06 ∧ md = 0 ∧ a = 0 ∧ b = 0 ∧ c = 0 then some .tobytestr
      else if op = 0x10 ∧ md.toNat / 2 = 0 then
        some (.hash (if md.toNat % 2 = 1 then .big else .little) a b c)
      else none

/-- 30_encoding.md R68: decoding an encoded command gives it back, every operand at every value. -/
def Obligations.DecodeOfEncodeIsTheCommand : Prop :=
  ∀ i : Instr, i.wf = true → decode (encode i) = .ok i

/-- 30_encoding.md R68: encoding the command of a legal word gives the word back, and a legal word is
never an ill-formed command. -/
def Obligations.EncodeOfDecodeIsTheWord : Prop :=
  ∀ (w : Cmd) (i : Instr), decode w = .ok i → encode i = w ∧ i.wf = true

/-- 95_test_vectors.md section 5: one word of every command, and one word of each illegal kind. -/
def Obligations.VectorWordsDecode : Prop :=
  decode (Cmd.ofWords 0x01000003 0x00000005 0 0) = .ok (.appendbits 5 3) ∧
  decode (Cmd.ofWords 0x02000000 0x00000010 0x00000002 0) = .ok (.appendstr 16 2) ∧
  decode (Cmd.ofWords 0x03000000 0 0 0) = .ok .bitlen ∧
  decode (Cmd.ofWords 0x04000000 0 0 0) = .ok .bytelen ∧
  decode (Cmd.ofWords 0x05000000 0 0 0) = .ok .tobytes ∧
  decode (Cmd.ofWords 0x06000000 0 0 0) = .ok .tobytestr ∧
  decode (Cmd.ofWords 0x10000001 0 3 3) = .ok (.hash .big 0 3 3) ∧
  decode (Cmd.ofWords 0 0 0 0) = .error .unknownOpcode ∧
  decode (Cmd.ofWords 0x01000021 0 0 0) = .error .nbitsTooLarge ∧
  decode (Cmd.ofWords 0x05800000 0 0 0) = .error .reservedBits

/-! ### The encoder unit -/

/-- 41_bitstream_encoder.md R101: `bits_msb(v, w)` has `w` bits, bit `i` of it being `v[w-1-i]`. -/
def Obligations.BitsMsbListsTheLowBitsTopFirst : Prop :=
  (∀ v w : Nat, (bitsMsb v w).length = w ∧
    ∀ i, i < w → (bitsMsb v w)[i]? = some (v / 2 ^ (w - 1 - i) % 2 == 1)) ∧
  bitsMsb 5 3 = [true, false, true] ∧ bitsMsb 2 2 = [true, false] ∧
  bitsMsb 1 4 = [false, false, false, true] ∧
  bitsMsb 0x48 8 = [false, true, false, false, true, false, false, false] ∧ bitsMsb 0 0 = []

/-- 41_bitstream_encoder.md R100: what `APPENDBITS` does on a value that fits, with its whole next
state, and its two errors in order. -/
def Obligations.AppendBitsFollowsItsRule : Prop :=
  ∀ (s : State) (value : Word) (nbits : BitVec 6), nbits.toNat ≤ 32 →
    (value.toNat < 2 ^ nbits.toNat → s.bitseq.length + nbits.toNat ≤ s.cfg.bitCap →
      exec (.appendbits value nbits) s = .next
        { s with
          bitseq := s.bitseq ++
            (List.range nbits.toNat).map fun i => value.getLsbD (nbits.toNat - 1 - i)
          responses := s.responses ++ [Claims.done (.appendbits value nbits) 0 []] }) ∧
    (2 ^ nbits.toNat ≤ value.toNat →
      exec (.appendbits value nbits) s =
        .next (Claims.answered s (Claims.failed (.appendbits value nbits) .rangeError))) ∧
    (value.toNat < 2 ^ nbits.toNat → s.cfg.bitCap < s.bitseq.length + nbits.toNat →
      exec (.appendbits value nbits) s =
        .next (Claims.answered s (Claims.failed (.appendbits value nbits) .capacity)))

/-- 30_encoding.md R66 (c) at the command: a term with `nbits` of 33 to 63 answers as its word does
(the model's, entry 8). -/
def Obligations.OverwideAppendBitsIsIllegal : Prop :=
  ∀ (s : State) (value : Word) (nbits : BitVec 6), 32 < nbits.toNat →
    exec (.appendbits value nbits) s =
      .next (Claims.answered s (Claims.failed (.appendbits value nbits) .illegalCommand))

/-- 41_bitstream_encoder.md R104: what `APPENDSTR` does on a range inside `BUF`, with its whole next
state: bit `p` of what is appended is bit `7 - p mod 8` of byte `p / 8` of the range; and its two errors
in order. -/
def Obligations.AppendStrFollowsItsRule : Prop :=
  ∀ (s : State) (off len : Word),
    (off.toNat + len.toNat ≤ s.cfg.bufSize → s.bitseq.length + 8 * len.toNat ≤ s.cfg.bitCap →
      exec (.appendstr off len) s = .next
        { s with
          bitseq := s.bitseq ++ (List.range (8 * len.toNat)).map fun p =>
            (Memory.read s.buf (off.toNat + p / 8)).getLsbD (7 - p % 8)
          responses := s.responses ++ [Claims.done (.appendstr off len) 0 []] }) ∧
    (s.cfg.bufSize < off.toNat + len.toNat →
      exec (.appendstr off len) s =
        .next (Claims.answered s (Claims.failed (.appendstr off len) .bufferRange))) ∧
    (off.toNat + len.toNat ≤ s.cfg.bufSize → s.cfg.bitCap < s.bitseq.length + 8 * len.toNat →
      exec (.appendstr off len) s =
        .next (Claims.answered s (Claims.failed (.appendstr off len) .capacity)))

/-- 41_bitstream_encoder.md R102: a field appended in two chunks, the more significant first, leaves the
bits of one append; neither chunk raises `RANGE_ERROR`. -/
def Obligations.ChunkedAppendsEqualOneAppend : Prop :=
  (∀ v p q : Nat, v < 2 ^ (p + q) →
    bitsMsb v (p + q) = bitsMsb (v / 2 ^ q) p ++ bitsMsb (v % 2 ^ q) q) ∧
  (∀ (s : State) (v p q : Nat), v < 2 ^ (p + q) → p ≤ 32 → q ≤ 32 →
    s.bitseq.length + p + q ≤ s.cfg.bitCap →
    ∃ t, Claims.performAll
        [.appendbits (BitVec.ofNat 32 (v / 2 ^ q)) (BitVec.ofNat 6 p),
         .appendbits (BitVec.ofNat 32 (v % 2 ^ q)) (BitVec.ofNat 6 q)] s = .next t ∧
      t.bitseq = s.bitseq ++ bitsMsb v (p + q) ∧
      t.responses.map Response.status = s.responses.map Response.status ++ [.ok, .ok] ∧
      (p + q ≤ 32 → ∃ u,
        exec (.appendbits (BitVec.ofNat 32 v) (BitVec.ofNat 6 (p + q))) s = .next u ∧
        u.bitseq = t.bitseq))

/-- 41_bitstream_encoder.md R105: a string append that passes its checks leaves the `BITSEQ` that the
byte-wide appends of its bytes, one after another, leave. -/
def Obligations.AppendStrEqualsItsByteAppends : Prop :=
  ∀ (s : State) (off len : Word), off.toNat + len.toNat ≤ s.cfg.bufSize →
    s.bitseq.length + 8 * len.toNat ≤ s.cfg.bitCap →
    ∃ t u, exec (.appendstr off len) s = .next t ∧
      Claims.performAll ((List.range len.toNat).map fun i =>
        .appendbits ((Memory.read s.buf (off.toNat + i)).setWidth 32) 8) s = .next u ∧
      u.bitseq = t.bitseq ∧ u.buf = t.buf ∧ u.cfg = t.cfg ∧
      u.responses = s.responses ++ List.replicate len.toNat (Claims.done (.appendbits 0 8) 0 [])

/-- 41_bitstream_encoder.md R108, R70: `BITLEN` answers the number of bits appended. -/
def Obligations.BitLenReportsTheLength : Prop :=
  ∀ s : State, s.cfg.Ok → s.bitseq.length ≤ s.cfg.bitCap →
    ∃ v : Word, v.toNat = s.bitseq.length ∧
      exec .bitlen s = .next (Claims.answered s (Claims.done .bitlen v []))

/-- 41_bitstream_encoder.md R109: `BYTELEN`, word `04000000 0 0 0`, answers the least number of bytes
that holds the bits, and changes nothing. -/
def Obligations.ByteLenReportsTheByteCount : Prop :=
  (encode .bytelen).words = [0x04000000, 0, 0, 0] ∧
  ∀ s : State, s.cfg.Ok → s.bitseq.length ≤ s.cfg.bitCap →
    ∃ v : Word, s.bitseq.length ≤ 8 * v.toNat ∧ 8 * v.toNat < s.bitseq.length + 8 ∧
      exec .bytelen s = .next (Claims.answered s (Claims.done .bytelen v []))

/-- 41_bitstream_encoder.md R110, R112: `TOBYTES`, word `05000000 0 0 0`, answers the bytes, `val` their
number, and changes nothing; bit `p` of the sequence is bit `7 - p mod 8` of byte `p / 8`, and the bits
past the sequence are 0; DUK's example. -/
def Obligations.ToBytesPacksTheSequence : Prop :=
  (encode .tobytes).words = [0x05000000, 0, 0, 0] ∧
  packBytes (bitsMsb 5 3 ++ bitsMsb 2 2) = [0xb0] ∧
  ∀ s : State, s.cfg.Ok → s.bitseq.length ≤ s.cfg.bitCap →
    ∃ (v : Word) (out : List Byte), v.toNat = out.length ∧
      s.bitseq.length ≤ 8 * out.length ∧ 8 * out.length < s.bitseq.length + 8 ∧
      (∀ p, p < 8 * out.length →
        (out.getD (p / 8) 0).getLsbD (7 - p % 8) = s.bitseq.getD p false) ∧
      exec .tobytes s = .next (Claims.answered s (Claims.done .tobytes v out))

/-- 41_bitstream_encoder.md R111: `TOBYTESTR`, word `06000000 0 0 0`, answers the `val` and the bytes
`TOBYTES` answers, under its own opcode, and changes nothing. -/
def Obligations.ToByteStrAnswersAsToBytes : Prop :=
  (encode .tobytestr).words = [0x06000000, 0, 0, 0] ∧
  ∀ s : State, ∃ (v : Word) (out : List Byte),
    exec .tobytes s = .next (Claims.answered s (Claims.done .tobytes v out)) ∧
    exec .tobytestr s = .next (Claims.answered s (Claims.done .tobytestr v out))

/-- 41_bitstream_encoder.md R112: two sequences with the same `BITLEN` and the same `TOBYTES` answer are
the same sequence. -/
def Obligations.LengthAndBytesDetermineTheSequence : Prop :=
  ∀ l l' : List Bool, l.length = l'.length → packBytes l = packBytes l' → l = l'

/-- 41_bitstream_encoder.md R112: when only whole bytes were appended, the bytes read back are the bytes
appended. -/
def Obligations.PackedStringIsTheString : Prop :=
  ∀ xs : List Byte, packBytes (stringBits xs) = xs

/-! ### The hasher unit -/

/-- 20_memory.md R45: the two compositions of four bytes, as numbers; each is the other's reversal. -/
def Obligations.FetchComposesTheBytes : Prop :=
  ∀ b0 b1 b2 b3 : Byte,
    (fetch32 b0 b1 b2 b3 .little).toNat =
      b0.toNat + 2 ^ 8 * b1.toNat + 2 ^ 16 * b2.toNat + 2 ^ 24 * b3.toNat ∧
    (fetch32 b0 b1 b2 b3 .big).toNat =
      2 ^ 24 * b0.toNat + 2 ^ 16 * b1.toNat + 2 ^ 8 * b2.toNat + b3.toNat ∧
    fetch32 b0 b1 b2 b3 .big = fetch32 b3 b2 b1 b0 .little

/-- 42_byte_block_hasher.md R131, R133, R136 and 00_scope.md R10: the steps as functions, with the
spec's examples. -/
def Obligations.MixingStepsAreTheRules : Prop :=
  (∀ seed n : Word, seedHash seed n = seed ^^^ n) ∧
  (∀ a b : Word, (mul32 a b).toNat = a.toNat * b.toNat % 2 ^ 32) ∧
  (∀ k : Word, mixk k =
    (k * 0x5bd1e995 ^^^ (k * 0x5bd1e995) >>> 24) * 0x5bd1e995) ∧
  (∀ h : Word, fmix h = Claims.finalize h) ∧
  mixk 0 = 0 ∧ mixk 0x64636261 = 0xecf5b977 ∧ fmix 0 = 0 ∧ fmix 1 = 0x5bd15e36

/-- 42_byte_block_hasher.md R134: `mixh` multiplies `h` before the XOR; the loop runs exactly
`floor(n / 4)` turns, however many it may take; turn `i` mixes the word at `off + 4i`, in ascending order; it ends with `n mod 4` bytes left at
`off + 4 * floor(n / 4)`; and at most `2^30 - 1` turns end it. -/
def Obligations.HashLoopRunsFloorOfQuarterTurns : Prop :=
  (∀ (m : Memory) (e : Endian) (w : HashWork) (extra : Nat),
    hashLoop m e (w.rem / 4 + extra) w =
      { h := (List.range (w.rem / 4)).foldl (fun h i => mixh h (fetchWord m e (w.cur + 4 * i))) w.h
        cur := w.cur + 4 * (w.rem / 4)
        rem := w.rem % 4 }) ∧
  (∀ n : Word, n.toNat / 4 ≤ 2 ^ 30 - 1) ∧
  (∀ h k : Word, mixh h k = h * 0x5bd1e995 ^^^ mixk k) ∧
  mixh 0x00000005 0x64636261 = 0x27ec369e

/-- 42_byte_block_hasher.md R135: the tail of each length, the multiply once and only when a byte is
left. -/
def Obligations.HashTailOfEachLength : Prop :=
  ∀ (m : Memory) (h : Word) (cur : Nat),
    hashTail m { h := h, cur := cur, rem := 0 } = h ∧
    hashTail m { h := h, cur := cur, rem := 1 } =
      (h ^^^ ((0 : BitVec 24) ++ Memory.read m cur)) * 0x5bd1e995 ∧
    hashTail m { h := h, cur := cur, rem := 2 } =
      (h ^^^ ((0 : BitVec 16) ++ Memory.read m (cur + 1) ++ Memory.read m cur)) * 0x5bd1e995 ∧
    hashTail m { h := h, cur := cur, rem := 3 } =
      (h ^^^ ((0 : Byte) ++ Memory.read m (cur + 2) ++ Memory.read m (cur + 1) ++
        Memory.read m cur)) * 0x5bd1e995

/-- 42_byte_block_hasher.md R130: `HASH` answers the hash of the bytes of its range, defined on the list
of bytes alone, and changes nothing else; a range that leaves `BUF` answers `BUFFER_RANGE`; the words
of the command; a reserved bit is `ILLEGAL_COMMAND`; the spec's example, and its corner whose value
is 0. -/
def Obligations.HashIsTheHashOfItsBytes : Prop :=
  (∀ (s : State) (e : Endian) (off n seed : Word),
    (off.toNat + n.toNat ≤ s.cfg.bufSize →
      exec (.hash e off n seed) s = .next (Claims.answered s (Claims.done (.hash e off n seed)
        (Claims.murmur e seed (Claims.bytesAt s off.toNat n.toNat)) []))) ∧
    (s.cfg.bufSize < off.toNat + n.toNat →
      exec (.hash e off n seed) s =
        .next (Claims.answered s (Claims.failed (.hash e off n seed) .bufferRange)))) ∧
  (∀ off n seed : Word,
    encode (.hash .little off n seed) = Cmd.ofWords 0x10000000 off n seed ∧
    encode (.hash .big off n seed) = Cmd.ofWords 0x10000001 off n seed) ∧
  (∀ (s : State) (w : Cmd) (rest : List HostAction), s.pending = .command w :: rest →
    w.extractLsb' 120 8 = 0x10 → w.extractLsb' 97 23 ≠ 0 →
    step s = .next { s with
      pending := rest
      responses := s.responses ++
        [{ echo := 0x10, status := .illegalCommand, val := 0, bytes := [] }] }) ∧
  Claims.murmur .little 4 [0, 0, 0, 0] = 0 ∧
  Claims.murmur .little 3 [0x61, 0x62, 0x63] = 0xdd8a588a

/-- 42_byte_block_hasher.md R139, 20_memory.md R47: the value depends on the bytes of the range alone,
not on where they lie, what lies around them, or anything else in the state. -/
def Obligations.HashDependsOnItsBytesOnly : Prop :=
  ∀ (s s' : State) (e : Endian) (off off' n seed : Word),
    off.toNat + n.toNat ≤ s.cfg.bufSize → off'.toNat + n.toNat ≤ s'.cfg.bufSize →
    (∀ i, i < n.toNat →
      Memory.read s.buf (off.toNat + i) = Memory.read s'.buf (off'.toNat + i)) →
    ∃ v : Word,
      exec (.hash e off n seed) s =
        .next (Claims.answered s (Claims.done (.hash e off n seed) v [])) ∧
      exec (.hash e off' n seed) s' =
        .next (Claims.answered s' (Claims.done (.hash e off' n seed) v []))

/-- 42_byte_block_hasher.md R138: the hash of the empty range is the finalized seed, for both `e` and
every `off` up to the end of `BUF`, with the spec's examples. -/
def Obligations.HashOfTheEmptyRange : Prop :=
  (∀ (s : State) (e : Endian) (off seed : Word), off.toNat ≤ s.cfg.bufSize →
    exec (.hash e off 0 seed) s =
      .next (Claims.answered s (Claims.done (.hash e off 0 seed) (Claims.finalize seed) []))) ∧
  Claims.finalize 0 = 0 ∧ Claims.finalize 1 = 0x5bd15e36 ∧
  Claims.finalize 0xdeadbeef = 0x5c8efdb6 ∧ Claims.finalize 0xffffffff = 0xb35966b0

/-- 42_byte_block_hasher.md R141: a range below four bytes does not see `e`, nor does one whose every
four-byte group is a palindrome; "abcd" does, in every state whose range holds it (vector V-H9). -/
def Obligations.ShortRangesDoNotSeeTheEndianness : Prop :=
  (∀ (s : State) (off n seed : Word),
    (n.toNat < 4 ∨ ∀ j, j < n.toNat / 4 →
      Memory.read s.buf (off.toNat + 4 * j) = Memory.read s.buf (off.toNat + 4 * j + 3) ∧
      Memory.read s.buf (off.toNat + 4 * j + 1) = Memory.read s.buf (off.toNat + 4 * j + 2)) →
    exec (.hash .little off n seed) s = exec (.hash .big off n seed) s) ∧
  (∀ (s : State) (off : Word), off.toNat + 4 ≤ s.cfg.bufSize →
    Claims.bytesAt s off.toNat 4 = [0x61, 0x62, 0x63, 0x64] →
    exec (.hash .little off 4 0) s =
      .next (Claims.answered s (Claims.done (.hash .little off 4 0) 0x26873021 [])) ∧
    exec (.hash .big off 4 0) s =
      .next (Claims.answered s (Claims.done (.hash .big off 4 0) 0xa71ab2c5 []))) ∧
  Claims.murmur .little 0 [0x61, 0x62, 0x63, 0x64] = 0x26873021 ∧
  Claims.murmur .big 0 [0x61, 0x62, 0x63, 0x64] = 0xa71ab2c5

/-! ### Errors -/

/-- 60_exceptions.md R201: `RANGE_ERROR`, code 1, is raised by `APPENDBITS` alone, exactly when `value` does not
fit `nbits` bits; DUK's fixture (256, 8). -/
def Obligations.RangeErrorExactlyWhenTheValueIsTooWide : Prop :=
  Status.code .rangeError = 1 ∧
  (∀ (i : Instr) (s : State), i.wf = true →
    (exec i s = .next (Claims.answered s (Claims.failed i .rangeError)) ↔
      ∃ value nbits, i = .appendbits value nbits ∧ value >>> nbits.toNat ≠ 0)) ∧
  (∀ s : State, exec (.appendbits 256 8) s =
    .next (Claims.answered s (Claims.failed (.appendbits 256 8) .rangeError)))

/-- 60_exceptions.md R204, 20_memory.md R42: `BUFFER_RANGE`, code 3, is raised by `HASH` and `APPENDSTR`
alone, exactly when `off + length > BUF_SIZE` as natural numbers, an empty range included. -/
def Obligations.BufferRangeExactlyWhenTheRangeLeavesBuf : Prop :=
  Status.code .bufferRange = 3 ∧
  (∀ (i : Instr) (s : State),
    exec i s = .next (Claims.answered s (Claims.failed i .bufferRange)) ↔
      (∃ e off n seed, i = .hash e off n seed ∧ s.cfg.bufSize < off.toNat + n.toNat) ∨
      (∃ off len, i = .appendstr off len ∧ s.cfg.bufSize < off.toNat + len.toNat))

/-- 60_exceptions.md R205, R207: `CAPACITY`, code 4, is raised by the two appends alone, exactly when the
operand check passes and the append would take the length past `BITCAP`. -/
def Obligations.CapacityExactlyWhenTheAppendDoesNotFit : Prop :=
  Status.code .capacity = 4 ∧
  (∀ (i : Instr) (s : State), i.wf = true →
    (exec i s = .next (Claims.answered s (Claims.failed i .capacity)) ↔
      (∃ value nbits, i = .appendbits value nbits ∧ value.toNat < 2 ^ nbits.toNat ∧
        s.cfg.bitCap < s.bitseq.length + nbits.toNat) ∨
      (∃ off len, i = .appendstr off len ∧ off.toNat + len.toNat ≤ s.cfg.bufSize ∧
        s.cfg.bitCap < s.bitseq.length + 8 * len.toNat)))

/-- 60_exceptions.md R203, 30_encoding.md R66, R72: a word that is no command answers
`ILLEGAL_COMMAND`, code 2, under the echo of its own opcode byte, and changes nothing; no legal word answers
so. -/
def Obligations.IllegalWordsAnswerIllegalCommand : Prop :=
  Status.code .illegalCommand = 2 ∧
  (∀ (s : State) (w : Cmd) (rest : List HostAction), s.pending = .command w :: rest →
    (∀ i, decode w ≠ .ok i) →
    step s = .next { s with
      pending := rest
      responses := s.responses ++
        [{ echo := w.opcode, status := .illegalCommand, val := 0, bytes := [] }] }) ∧
  (∀ (s t : State) (w : Cmd) (rest : List HostAction) (i : Instr), s.pending = .command w :: rest →
    decode w = .ok i → step s = .next t →
    ∃ r, t.responses = s.responses ++ [r] ∧ r.echo = w.opcode ∧ r.status ≠ .illegalCommand)

/-- 60_exceptions.md R200: a command word answered with an error changes nothing but the response: no
state is written, `val` is 0 and no bytes are carried; the next command is performed as if the failed
one had never been issued. -/
def Obligations.ErrorsChangeNothing : Prop :=
  ∀ (s t : State) (w : Cmd) (rest : List HostAction) (r : Response),
    s.pending = .command w :: rest → step s = .next t → t.responses = s.responses ++ [r] →
    r.status ≠ .ok →
    t = { s with pending := rest, responses := s.responses ++ [r] } ∧ r.val = 0 ∧ r.bytes = [] ∧
    ∀ (i : Instr), ∃ u u' r', exec i { s with pending := rest } = .next u ∧ exec i t = .next u' ∧
      u'.bitseq = u.bitseq ∧ u'.buf = u.buf ∧ u.responses = s.responses ++ [r'] ∧
      u'.responses = t.responses ++ [r']

/-! ### Frames -/

/-- 10_state.md R29, the row of each command that only reads (`BITLEN`, `BYTELEN`, `TOBYTES`,
`TOBYTESTR`, `HASH`): one response under its own opcode, and everything else as it was, every byte of
`BUF` included. -/
def Obligations.ReadingCommandsChangeNothing : Prop :=
  ∀ (i : Instr) (s t : State),
    (i = .bitlen ∨ i = .bytelen ∨ i = .tobytes ∨ i = .tobytestr ∨
      ∃ e off n seed, i = .hash e off n seed) →
    exec i s = .next t →
    t.cfg = s.cfg ∧ t.bitseq = s.bitseq ∧ t.pending = s.pending ∧
    (∀ a, Memory.read t.buf a = Memory.read s.buf a) ∧
    ∃ r, t.responses = s.responses ++ [r] ∧ r.echo = i.opcode

/-- 10_state.md R29, R23, the rows of `APPENDBITS` and `APPENDSTR`: `BITSEQ` grows at its end by
`nbits`, or `8 * len`, bits on success and is unchanged on error; one response under the command's own
opcode; everything else as it was, every byte of `BUF` included. -/
def Obligations.AppendsChangeOnlyTheEndOfTheSequence : Prop :=
  ∀ (i : Instr) (s t : State) (width : Nat),
    ((∃ value nbits, i = .appendbits value nbits ∧ width = nbits.toNat) ∨
      (∃ off len, i = .appendstr off len ∧ width = 8 * len.toNat)) →
    exec i s = .next t →
    t.cfg = s.cfg ∧ t.pending = s.pending ∧
    (∀ a, Memory.read t.buf a = Memory.read s.buf a) ∧
    ∃ r new, t.responses = s.responses ++ [r] ∧ r.echo = i.opcode ∧ t.bitseq = s.bitseq ++ new ∧
      (r.status = .ok → new.length = width) ∧ (r.status ≠ .ok → new = [])

/-- 10_state.md R29, the whole write table, one clause for each row, and the idle step. The bytes a host
write leaves are stated for `BUF` in the model's canonical form (entry 5). -/
def Obligations.StepWriteTable : Prop :=
  ∀ (s t : State), step s = .next t → t.cfg = s.cfg ∧ t.pending = s.pending.tail ∧
    (∀ w, s.pending.head? = some (.command w) →
      t.buf = s.buf ∧ (∃ new, t.bitseq = s.bitseq ++ new) ∧
      (t.bitseq ≠ s.bitseq → ∃ i, decode w = .ok i ∧
        ((∃ value nbits, i = .appendbits value nbits) ∨ ∃ off len, i = .appendstr off len))) ∧
    (s.pending.head? = some .reset →
      t.buf = s.buf ∧ t.bitseq = [] ∧ t.responses = s.responses) ∧
    (∀ addr v, s.pending.head? = some (.writeBuf addr v) →
      t.bitseq = s.bitseq ∧ t.responses = s.responses ∧ addr < s.cfg.bufSize ∧
      (Memory.wf s.buf = true →
        ∀ a, Memory.read t.buf a = if a = addr then v else Memory.read s.buf a)) ∧
    (s.pending = [] → t = s)

/-! ### Responses -/

/-- 30_encoding.md R71: the five codes, and no code of 5 or more. -/
def Obligations.StatusCodesAreTheFive : Prop :=
  Status.code .ok = 0 ∧ Status.code .rangeError = 1 ∧ Status.code .illegalCommand = 2 ∧
  Status.code .bufferRange = 3 ∧ Status.code .capacity = 4 ∧
  (∀ st : Status, st.code.toNat < 5) ∧ (∀ st st' : Status, st.code = st'.code → st = st')

/-- 30_encoding.md R72: `R0` by its fields, `R1`, and the payload words, `ceil(len / 4)` of them, byte
`4j` the most significant of `Pj`, a byte past the end reading as 0; the spec's example. -/
def Obligations.ResponseWordsLayout : Prop :=
  (∀ r : Response, ∃ r0 ps, r.words = r0 :: r.val :: ps ∧
    r0.extractLsb' 24 8 = r.echo ∧ r0.extractLsb' 8 16 = 0 ∧ r0.extractLsb' 0 8 = r.status.code ∧
    r.bytes.length ≤ 4 * ps.length ∧ 4 * ps.length < r.bytes.length + 4 ∧
    ∀ j i, j < ps.length → i < 4 →
      (ps.getD j 0).extractLsb' (24 - 8 * i) 8 = r.bytes.getD (4 * j + i) 0) ∧
  Response.words (Claims.done .tobytes 1 [0xb0]) = [0x05000000, 0x00000001, 0xb0000000]

/-- 30_encoding.md R72: the payload words of `TOBYTES` are `BITSEQ` cut into 32-bit pieces, the first
bit at bit 31 of `P0`, zeros at the low end of the last. -/
def Obligations.PayloadWordsAreTheSequenceInPieces : Prop :=
  ∀ (l : List Bool) (p : Nat), p < 32 * (payloadWords (packBytes l)).length →
    ((payloadWords (packBytes l)).getD (p / 32) 0).getLsbD (31 - p % 32) = l.getD p false

/-! ### Invariants and runs -/

/-- The model's invariant (its canonical form of `BUF` is entry 5) holds after reset, of a block of any
parameters and any contents of `BUF`; the parameters and contents of `State.reset` are entries 4 and
5. -/
def Obligations.ResetMeetsTheInvariant : Prop :=
  (∀ (cfg : Config) (buf : Memory), cfg.Ok → Memory.wf buf = true →
    (∀ c ∈ buf, c.1 < cfg.bufSize) → (State.launch cfg buf).Inv) ∧
  State.reset.Inv

/-- Every step keeps the invariant: `BITSEQ` within `BITCAP` (10_state.md R23), `BUF` inside its
addresses (20_memory.md R40) and in canonical form (the model's, entry 5), every response of the form
`Response.Ok` takes from 30_encoding.md R70. -/
def Obligations.StepKeepsTheInvariant : Prop :=
  ∀ s t : State, s.Inv → step s = .next t → t.Inv

/-- 60_exceptions.md R200, R208, 70_reset_and_hazards.md R234: while the host keeps to the addresses of
`BUF`, the block answers every command word it is given, one response each, in order, and never
stops. -/
def Obligations.EveryCommandIsAnsweredInOrder : Prop :=
  ∀ s : State, s.HostInRange →
    ∃ t rs, Host.Core.run core s.pending.length s = .next t ∧ t.pending = [] ∧
      t.responses = s.responses ++ rs ∧ rs.map Response.echo = Claims.opcodes s.pending

/-- 10_state.md R23: along a run without reset, `BITSEQ` before is the beginning of `BITSEQ` after. -/
def Obligations.SequenceOnlyGrowsWithoutReset : Prop :=
  ∀ (k : Nat) (s t : State), HostAction.reset ∉ s.pending.take k →
    Host.Core.run core k s = .next t → s.bitseq <+: t.bitseq

/-- 41_bitstream_encoder.md R108: along a run of command words, the length of `BITSEQ` grows by the sum
of the widths of the appends answered `OK`, and by nothing else. -/
def Obligations.LengthIsTheSumOfTheSuccessfulAppends : Prop :=
  ∀ (ws : List Cmd) (s t : State), s.pending = ws.map HostAction.command →
    Host.Core.run core ws.length s = .next t →
    ∃ rs, t.responses = s.responses ++ rs ∧ rs.length = ws.length ∧
      t.bitseq.length = s.bitseq.length +
        ((ws.zip rs).map fun x => Claims.appendedBits x.1 x.2.status).sum

/-- 70_reset_and_hazards.md R237, 10_state.md R33: two runs from states with the same parameters,
`BITSEQ`, `BUF` and host actions answer the same responses and end in the same `BITSEQ` and `BUF`: no
response is read back. -/
def Obligations.ResponsesAreNeverReadBack : Prop :=
  ∀ (k : Nat) (s s' t : State), s'.cfg = s.cfg → s'.bitseq = s.bitseq → s'.buf = s.buf →
    s'.pending = s.pending → Host.Core.run core k s = .next t →
    ∃ t' rs, Host.Core.run core k s' = .next t' ∧ t'.bitseq = t.bitseq ∧ t'.buf = t.buf ∧
      t'.pending = t.pending ∧ t.responses = s.responses ++ rs ∧ t'.responses = s'.responses ++ rs

/-- 41_bitstream_encoder.md R113, 10_state.md R28: `BITSEQ` and `BUF` at the end of a run do not depend
on the `HASH`, reading and illegal commands in between: leaving them all out ends in the same. -/
def Obligations.OnlyAppendsAndHostMovesMatter : Prop :=
  ∀ s t : State, Host.Core.run core s.pending.length s = .next t →
    ∃ t', Host.Core.run core (s.pending.filter Claims.matters).length
        { s with pending := s.pending.filter Claims.matters } = .next t' ∧
      t'.bitseq = t.bitseq ∧ t'.buf = t.buf

/-! ### The software around the block -/

/-- 43_host_software.md R161, 42_byte_block_hasher.md R140: on the short path the length is XORed in
twice and cancels, and the dense hash is the hash of the whole string begun at the bare seed. For a
string that leaves `BUF` this is the model's choice (entry 14). -/
def Obligations.DenseShortPathStartsAtTheSeed : Prop :=
  ∀ (s : State) (e : Endian) (base len : Nat) (seed : Word), len ≤ 4096 →
    denseHash s.buf e base len seed false =
      Claims.murmur e (seed ^^^ BitVec.ofNat 32 len) (Claims.bytesAt s base len) ∧
    denseHash s.buf e base len seed false =
      Claims.finalize (Claims.mixBytes e seed (Claims.bytesAt s base len))

/-- 43_host_software.md R161: on the short path, for a string inside `BUF`, the dense hash is the `val`
the block answers to `HASH.e(base, length(x), seed XOR length(x))`, with nothing else changed. -/
def Obligations.DenseShortPathIsOneHashCommand : Prop :=
  ∀ (s : State) (e : Endian) (base : Word) (len : Nat) (seed : Word), len ≤ 4096 →
    base.toNat + len ≤ s.cfg.bufSize →
    let i := Instr.hash e base (BitVec.ofNat 32 len) (seed ^^^ BitVec.ofNat 32 len)
    exec i s =
      .next (Claims.answered s (Claims.done i (denseHash s.buf e base.toNat len seed false) [])) ∧
    denseHash s.buf e base.toNat len seed false =
      Claims.finalize (Claims.mixBytes e seed (Claims.bytesAt s base.toNat len))

/-- 43_host_software.md R170: truncation keeps the low 16 bits of either hash (what the hash of
a string that leaves `BUF`, or has 2^32 bytes, is: entries 14 and 18). -/
def Obligations.TruncationKeepsTheLowSixteenBits : Prop :=
  ∀ (m : Memory) (e : Endian) (base len : Nat) (seed : Word),
    (denseHash m e base len seed true).toNat =
      (denseHash m e base len seed false).toNat % 2 ^ 16 ∧
    (sparseHash m base len seed true).toNat = (sparseHash m base len seed false).toNat % 2 ^ 16

/-- 43_host_software.md R169: the counter adds up over parts and counts a single byte exactly when it
is no continuation byte; DUK's fixture counts 2 (90_conflicts.md C1). -/
def Obligations.CodepointCounterSkipsContinuationBytes : Prop :=
  (∀ x y : List Byte, codepointCount (x ++ y) = codepointCount x + codepointCount y) ∧
  (∀ b : Byte, codepointCount [b] = if 0x80 ≤ b.toNat ∧ b.toNat ≤ 0xBF then 0 else 1) ∧
  codepointCount [] = 0 ∧ codepointCount [0x41, 0x80, 0xC3, 0xA9] = 2

/-- 43_host_software.md R162, R167: the bounds the model puts on the two loops are enough: a longer
bound gives the same value. -/
def Obligations.StringHasherLoopsEndWithinTheirBounds : Prop :=
  (∀ (m : Memory) (e : Endian) (base len : Nat) (seed' : Word) (off : Nat) (res : Word)
    (extra : Nat),
    denseBlocks m e base len seed' (len + extra) off res =
      denseBlocks m e base len seed' len off res) ∧
  (∀ (m : Memory) (base len : Nat) (res : Word) (extra : Nat),
    sparseLoop m base (len / 32 + 1) (len + extra) len res =
      sparseLoop m base (len / 32 + 1) len len res)

/-- 43_host_software.md R167: the sparse hash of the empty string is the seed; "abc" as the spec works
it out. -/
def Obligations.SparseHashOfSmallStrings : Prop :=
  (∀ (m : Memory) (base : Nat) (seed : Word), sparseHash m base 0 seed false = seed) ∧
  sparseHash [(0, 0x61), (1, 0x62), (2, 0x63)] 0 3 0 false = 0x00035749

/-- 30_encoding.md R74: lines of the spec's assembler and the command words beside them; the suffix of
`HASH` is mandatory. -/
def Obligations.AssemblerSpellsTheCommands : Prop :=
  (parseLine "APPENDBITS 0xabc, 12 ; packed".toList = some (.command (.appendbits 0xabc 12)) ∧
    (encode (.appendbits 0xabc 12)).words = [0x0100000c, 0x00000abc, 0, 0]) ∧
  (parseLine "APPENDSTR  8, 2".toList = some (.command (.appendstr 8 2)) ∧
    (encode (.appendstr 8 2)).words = [0x02000000, 0x00000008, 0x00000002, 0]) ∧
  (parseLine "HASH.BE    0, 3, 0b11".toList = some (.command (.hash .big 0 3 3)) ∧
    (encode (.hash .big 0 3 3)).words = [0x10000001, 0, 0x00000003, 0x00000003]) ∧
  parseLine "BITLEN".toList = some (.command .bitlen) ∧
  parseLine "BYTELEN".toList = some (.command .bytelen) ∧
  parseLine "TOBYTES".toList = some (.command .tobytes) ∧
  parseLine "TOBYTESTR ; -> 06000000 00000000".toList = some (.command .tobytestr) ∧
  parseLine "HASH 0, 3, 3".toList = none ∧
  parseLine ".buf 8: 6f 6b".toList = some (.bufBytes 8 [0x6f, 0x6b])
end

