-- ==== Sys2Proof/Laws/Bits.lean ====
section
/-! SUPPORT. Lengths and bits of the sequences the encoder makes. -/
namespace Sys2Proof.Machine

@[simp] theorem bitsMsb_zero (v : Nat) : bitsMsb v 0 = [] := rfl

theorem bitsMsb_succ (v w : Nat) : bitsMsb v (w + 1) = v.testBit w :: bitsMsb v w := rfl

@[simp] theorem bitsMsb_length (v w : Nat) : (bitsMsb v w).length = w := by
  induction w with
  | zero => rfl
  | succ w ih => simp [bitsMsb_succ, ih]

@[simp] theorem stringBits_nil : stringBits [] = [] := rfl

@[simp] theorem stringBits_cons (x : Byte) (xs : List Byte) :
    stringBits (x :: xs) = bitsMsb x.toNat 8 ++ stringBits xs := rfl

@[simp] theorem stringBits_length (xs : List Byte) : (stringBits xs).length = 8 * xs.length := by
  induction xs with
  | nil => rfl
  | cons x xs ih => simp [ih]; omega

@[simp] theorem packBytes_length (bits : List Bool) :
    (packBytes bits).length = byteCount bits.length := by
  simp [packBytes]

/-- The `val` of a number that fits. -/
theorem valOf_toNat (n : Nat) (h : n < 2 ^ 32) : (valOf n).toNat = n := by
  rw [valOf, BitVec.toNat_ofNat, Nat.mod_eq_of_lt h]

/-- The guard of `APPENDBITS` as a comparison. -/
theorem valueTooWide_iff (value : Word) (nbits : Nat) :
    valueTooWide value nbits = true ↔ 2 ^ nbits ≤ value.toNat := by
  have key : value >>> nbits = 0#32 ↔ value.toNat < 2 ^ nbits := by
    rw [← BitVec.toNat_inj, BitVec.toNat_ushiftRight, Nat.shiftRight_eq_div_pow, BitVec.toNat_ofNat,
      Nat.zero_mod, Nat.div_eq_zero_iff]
    have : 2 ^ nbits ≠ 0 := by positivity
    tauto
  simp only [valueTooWide, bne_iff_ne, ne_eq]
  rw [show (0 : BitVec 32) = 0#32 from rfl, key]
  omega

@[simp] theorem rangeLeavesBuf_iff (s : State) (off n : Nat) :
    rangeLeavesBuf s off n = true ↔ s.cfg.bufSize < off + n := by
  simp [rangeLeavesBuf]

@[simp] theorem passesCapacity_iff (s : State) (width : Nat) :
    passesCapacity s width = true ↔ s.cfg.bitCap < s.bitseq.length + width := by
  simp [passesCapacity]

end Sys2Proof.Machine
end

