-- ==== Sys2Proof/Laws/Encoding.lean ====
section
/-! SUPPORT. The fields of a word put together from fields, and a word as what its fields make. -/
namespace Sys2Proof
section
variable (op : Byte) (md : BitVec 24) (a b c : Word)

/-- Each bit of a word put together from fields (30_encoding.md R61). -/
theorem Cmd.getLsbD_ofFields (i : Nat) :
    (Cmd.ofFields op md a b c).getLsbD i =
      if i < 32 then c.getLsbD i
      else if i < 64 then b.getLsbD (i - 32)
      else if i < 96 then a.getLsbD (i - 64)
      else if i < 120 then md.getLsbD (i - 96)
      else op.getLsbD (i - 120) := by
  show BitVec.getLsbD (w := 8 + 24 + 32 + 32 + 32) (op ++ md ++ a ++ b ++ c) i = _
  simp only [BitVec.getLsbD_append]
  split_ifs <;> first | omega | congr 1

@[simp] theorem Cmd.opcode_ofFields : (Cmd.ofFields op md a b c).opcode = op := by
  refine BitVec.eq_of_getLsbD_eq fun i hi => ?_
  simp only [Cmd.opcode, BitVec.getLsbD_extractLsb', Cmd.getLsbD_ofFields]
  split_ifs <;> first | omega | simp [hi]

@[simp] theorem Cmd.mod_ofFields : (Cmd.ofFields op md a b c).mod = md := by
  refine BitVec.eq_of_getLsbD_eq fun i hi => ?_
  simp only [Cmd.mod, BitVec.getLsbD_extractLsb', Cmd.getLsbD_ofFields]
  split_ifs <;> first | omega | simp [hi]

@[simp] theorem Cmd.a_ofFields : (Cmd.ofFields op md a b c).a = a := by
  refine BitVec.eq_of_getLsbD_eq fun i hi => ?_
  simp only [Cmd.a, BitVec.getLsbD_extractLsb', Cmd.getLsbD_ofFields]
  split_ifs <;> first | omega | simp [hi]

@[simp] theorem Cmd.b_ofFields : (Cmd.ofFields op md a b c).b = b := by
  refine BitVec.eq_of_getLsbD_eq fun i hi => ?_
  simp only [Cmd.b, BitVec.getLsbD_extractLsb', Cmd.getLsbD_ofFields]
  split_ifs <;> first | omega | simp [hi]

@[simp] theorem Cmd.c_ofFields : (Cmd.ofFields op md a b c).c = c := by
  refine BitVec.eq_of_getLsbD_eq fun i hi => ?_
  simp only [Cmd.c, BitVec.getLsbD_extractLsb', Cmd.getLsbD_ofFields]
  split_ifs <;> first | omega | simp [hi]
end

/-- A word is what its five fields make (30_encoding.md R61). -/
theorem Cmd.ofFields_fields (w : Cmd) : Cmd.ofFields w.opcode w.mod w.a w.b w.c = w := by
  refine BitVec.eq_of_getLsbD_eq fun i hi => ?_
  simp only [Cmd.getLsbD_ofFields, Cmd.opcode, Cmd.mod, Cmd.a, Cmd.b, Cmd.c,
    BitVec.getLsbD_extractLsb']
  split_ifs <;>
    (rw [decide_eq_true (by omega), Bool.true_and]; congr 1; omega)

/-- The low part of a modifier put together from two parts. -/
theorem mod_low_append {n k : Nat} (x : BitVec n) (y : BitVec k) :
    (x ++ y).extractLsb' 0 k = y := by
  refine BitVec.eq_of_getLsbD_eq fun i hi => ?_
  simp [BitVec.getLsbD_append, hi]

/-- The high part of a modifier put together from two parts. -/
theorem mod_high_append {n k : Nat} (x : BitVec n) (y : BitVec k) :
    (x ++ y).extractLsb' k n = x := by
  refine BitVec.eq_of_getLsbD_eq fun i hi => ?_
  simp [BitVec.getLsbD_append, hi]

/-- The `nbits` field of the modifier the encoder makes (30_encoding.md R61, format `B`). -/
@[simp] theorem nbits_of_mod (n : BitVec 6) :
    BitVec.extractLsb' (n := 24) 0 6 (0#18 ++ n) = n := mod_low_append _ n

/-- The reserved part of that modifier. -/
@[simp] theorem reserved_of_nbits_mod (n : BitVec 6) :
    BitVec.extractLsb' (n := 24) 6 18 (0#18 ++ n) = 0#18 := mod_high_append 0#18 n

/-- The reserved part of the modifier of `HASH` (30_encoding.md R61, format `H`). -/
@[simp] theorem reserved_of_e_mod (b : BitVec 1) :
    BitVec.extractLsb' (n := 24) 1 23 (0#23 ++ b) = 0#23 := mod_high_append 0#23 b

end Sys2Proof
end

