-- ==== Sys2Proof/Laws/Memory.lean ====
section
/-! SUPPORT. The laws of `BUF`: a read after a write, and that every write keeps the canonical form. -/
namespace Sys2Proof.Machine

@[simp] theorem Memory.read_nil (a : Nat) : Memory.read [] a = Memory.unlisted := rfl

theorem Memory.read_cons (k : Nat) (x : Byte) (m : Memory) (a : Nat) :
    Memory.read ((k, x) :: m) a = if a = k then x else Memory.read m a := rfl

/-- An address below every listed one is unlisted. -/
theorem Memory.read_of_lt (m : Memory) (a : Nat) (h : ∀ c ∈ m, a < c.1) :
    Memory.read m a = Memory.unlisted := by
  induction m with
  | nil => rfl
  | cons c m ih =>
    obtain ⟨k, x⟩ := c
    have hk : a < k := h (k, x) (by simp)
    rw [Memory.read_cons, if_neg (by omega)]
    exact ih fun d hd => h d (by simp [hd])

/-- Reading through the cell of address `a`, where the rest lists nothing at `a`. -/
theorem Memory.read_cell_append (m : Memory) (a : Nat) (v : Byte)
    (h : Memory.read m a = Memory.unlisted) (b : Nat) :
    Memory.read (Memory.cell a v ++ m) b = if b = a then v else Memory.read m b := by
  unfold Memory.cell
  by_cases hv : v = Memory.unlisted
  · by_cases hb : b = a
    · subst hb; simp [hv, h]
    · simp [hv, hb]
  · simp [hv, Memory.read_cons]

/-- A read after a write: the byte written at its address, every other byte as before. -/
theorem Memory.read_write (m : Memory) (hm : Memory.Canonical m) (a : Nat) (v : Byte) (b : Nat) :
    Memory.read (Memory.write m a v) b = if b = a then v else Memory.read m b := by
  induction m with
  | nil => simpa [Memory.write] using Memory.read_cell_append [] a v rfl b
  | cons c m ih =>
    obtain ⟨k, x⟩ := c
    obtain ⟨hp, hne⟩ := hm
    rw [List.pairwise_cons] at hp
    have ih := ih ⟨hp.2, fun d hd => hne d (by simp [hd])⟩
    unfold Memory.write
    split
    · next hlt =>
      refine Memory.read_cell_append _ a v (Memory.read_of_lt _ _ fun d hd => ?_) b
      rcases List.mem_cons.1 hd with rfl | hd
      · exact hlt
      · exact lt_trans hlt (hp.1 d hd)
    · split
      · next hk =>
        subst hk
        rw [Memory.read_cell_append m a v (Memory.read_of_lt m a hp.1) b, Memory.read_cons]
        by_cases hb : b = a <;> simp [hb]
      · next hk =>
        rw [Memory.read_cons, ih, Memory.read_cons]
        by_cases hb : b = k
        · have : ¬ b = a := by omega
          simp [hb, Ne.symm hk]
        · simp [hb]

/-- The addresses a write can list. -/
theorem Memory.mem_write (m : Memory) (a : Nat) (v : Byte) :
    ∀ c ∈ Memory.write m a v, c ∈ m ∨ (c = (a, v) ∧ v ≠ Memory.unlisted) := by
  have hcell : ∀ c ∈ Memory.cell a v, c = (a, v) ∧ v ≠ Memory.unlisted := by
    intro c hc
    unfold Memory.cell at hc
    split at hc
    · simp at hc
    · next hv => exact ⟨by simpa using hc, hv⟩
  induction m with
  | nil => exact fun c hc => .inr (hcell c hc)
  | cons d m ih =>
    obtain ⟨k, x⟩ := d
    intro c hc
    unfold Memory.write at hc
    split at hc
    · rcases List.mem_append.1 hc with h | h
      · exact .inr (hcell c h)
      · exact .inl h
    · split at hc
      · rcases List.mem_append.1 hc with h | h
        · exact .inr (hcell c h)
        · exact .inl (List.mem_cons_of_mem _ h)
      · rcases List.mem_cons.1 hc with rfl | h
        · exact .inl (by simp)
        · exact (ih c h).imp (List.mem_cons_of_mem _) id

/-- The cell of `a` before a canonical memory all of whose addresses are above `a`. -/
theorem Memory.canonical_cell_append (m : Memory) (hm : Memory.Canonical m) (a : Nat) (v : Byte)
    (h : ∀ c ∈ m, a < c.1) : Memory.Canonical (Memory.cell a v ++ m) := by
  unfold Memory.cell
  split
  · exact hm
  · next hv =>
    refine ⟨List.pairwise_cons.2 ⟨h, hm.1⟩, fun c hc => ?_⟩
    rcases List.mem_cons.1 hc with rfl | hc
    · exact hv
    · exact hm.2 c hc

/-- A write keeps the canonical form. -/
theorem Memory.canonical_write (m : Memory) (hm : Memory.Canonical m) (a : Nat) (v : Byte) :
    Memory.Canonical (Memory.write m a v) := by
  induction m with
  | nil => simpa [Memory.write] using Memory.canonical_cell_append [] hm a v (by simp)
  | cons c m ih =>
    obtain ⟨k, x⟩ := c
    have hm0 := hm
    obtain ⟨hp, hne⟩ := hm
    rw [List.pairwise_cons] at hp
    have hm' : Memory.Canonical m := ⟨hp.2, fun d hd => hne d (by simp [hd])⟩
    unfold Memory.write
    split
    · next hlt =>
      refine Memory.canonical_cell_append _ hm0 a v fun d hd => ?_
      rcases List.mem_cons.1 hd with rfl | hd
      · exact hlt
      · exact lt_trans hlt (hp.1 d hd)
    · split
      · next hk =>
        subst hk
        exact Memory.canonical_cell_append m hm' a v hp.1
      · next hlt hk =>
        have ih := ih hm'
        refine ⟨List.pairwise_cons.2 ⟨fun d hd => ?_, ih.1⟩, fun d hd => ?_⟩
        · rcases Memory.mem_write m a v d hd with h | ⟨rfl, -⟩
          · exact hp.1 d h
          · show k < a
            omega
        · rcases List.mem_cons.1 hd with rfl | hd
          · exact hne _ (by simp)
          · exact ih.2 d hd

@[simp] theorem Memory.wf_iff (m : Memory) : Memory.wf m = true ↔ Memory.Canonical m := by
  simp [Memory.wf]

@[simp] theorem Memory.range_length (m : Memory) (off n : Nat) :
    (Memory.range m off n).length = n := by
  simp [Memory.range]

/-- The range's bytes are those of `BUF`, in address order. -/
theorem Memory.range_getElem (m : Memory) (off n i : Nat) (h : i < (Memory.range m off n).length) :
    (Memory.range m off n)[i] = Memory.read m (off + i) := by
  simp [Memory.range]

end Sys2Proof.Machine
end

