-- ==== Sys2Proof/Laws/State.lean ====
section
/-! SUPPORT. What each named update of the state does to each field. -/
namespace Sys2Proof.Machine

@[simp] theorem State.emit_cfg (r : Response) (s : State) : (s.emit r).cfg = s.cfg := rfl
@[simp] theorem State.emit_bitseq (r : Response) (s : State) : (s.emit r).bitseq = s.bitseq := rfl
@[simp] theorem State.emit_buf (r : Response) (s : State) : (s.emit r).buf = s.buf := rfl
@[simp] theorem State.emit_pending (r : Response) (s : State) : (s.emit r).pending = s.pending := rfl
@[simp] theorem State.emit_responses (r : Response) (s : State) :
    (s.emit r).responses = s.responses ++ [r] := rfl

@[simp] theorem State.append_cfg (new : List Bool) (s : State) : (s.append new).cfg = s.cfg := rfl
@[simp] theorem State.append_bitseq (new : List Bool) (s : State) :
    (s.append new).bitseq = s.bitseq ++ new := rfl
@[simp] theorem State.append_buf (new : List Bool) (s : State) : (s.append new).buf = s.buf := rfl
@[simp] theorem State.append_pending (new : List Bool) (s : State) :
    (s.append new).pending = s.pending := rfl
@[simp] theorem State.append_responses (new : List Bool) (s : State) :
    (s.append new).responses = s.responses := rfl

@[simp] theorem State.launch_cfg (c : Config) (m : Memory) : (State.launch c m).cfg = c := rfl
@[simp] theorem State.launch_bitseq (c : Config) (m : Memory) : (State.launch c m).bitseq = [] := rfl
@[simp] theorem State.launch_buf (c : Config) (m : Memory) : (State.launch c m).buf = m := rfl
@[simp] theorem State.launch_pending (c : Config) (m : Memory) : (State.launch c m).pending = [] := rfl
@[simp] theorem State.launch_responses (c : Config) (m : Memory) :
    (State.launch c m).responses = [] := rfl

/-- Appending nothing changes nothing. -/
@[simp] theorem State.append_nil (s : State) : s.append [] = s := by
  simp [State.append]

end Sys2Proof.Machine
end

