-- ==== Sys2Proof/Laws/Exec.lean ====
section
/-! SUPPORT. What performing a command can do, said once. -/
namespace Sys2Proof.Machine

@[simp] theorem respond_eq (echo : Byte) (val : Word) (bytes : List Byte) (s : State) :
    respond echo val bytes s =
      .next (s.emit { echo := echo, status := .ok, val := val, bytes := bytes }) := rfl

@[simp] theorem raise_eq (echo : Byte) (status : Status) (s : State) :
    raise echo status s =
      .next (s.emit { echo := echo, status := status, val := 0, bytes := [] }) := rfl

/-- Everything a command can do: it grows `BITSEQ` by some bits within the capacity, and emits one
response under its own opcode; with an error status nothing grows and nothing is carried. -/
theorem exec_cases (i : Instr) (s : State) :
    ∃ new r, exec i s = .next ((s.append new).emit r) ∧ r.echo = i.opcode ∧
      (r.status ≠ .ok → new = [] ∧ r.val = 0 ∧ r.bytes = []) ∧
      (new = [] ∨ s.bitseq.length + new.length ≤ s.cfg.bitCap) ∧
      (new ≠ [] → (∃ value nbits, i = .appendbits value nbits) ∨ ∃ off len, i = .appendstr off len) ∧
      (s.bitseq.length < 2 ^ 32 → r.Ok) := by
  have err : ∀ (st : Status), st ≠ .ok → ∃ new r,
      raise i.opcode st s = .next ((s.append new).emit r) ∧ r.echo = i.opcode ∧
      (r.status ≠ .ok → new = [] ∧ r.val = 0 ∧ r.bytes = []) ∧
      (new = [] ∨ s.bitseq.length + new.length ≤ s.cfg.bitCap) ∧
      (new ≠ [] → (∃ value nbits, i = .appendbits value nbits) ∨ ∃ off len, i = .appendstr off len) ∧
      (s.bitseq.length < 2 ^ 32 → r.Ok) := fun st hst =>
    ⟨[], { echo := i.opcode, status := st, val := 0, bytes := [] },
      by rw [State.append_nil, raise_eq], rfl, fun _ => ⟨rfl, rfl, rfl⟩, .inl rfl,
      fun h => absurd rfl h, fun _ =>
      ⟨fun _ => ⟨rfl, rfl⟩, fun _ => rfl, fun _ _ => rfl, fun _ => rfl⟩⟩
  have quiet : ∀ (val : Word) (bytes : List Byte),
      ¬(i.opcode = opAppendbits ∨ i.opcode = opAppendstr) →
      (i.opcode ≠ opTobytes → i.opcode ≠ opTobytestr → bytes = []) →
      (s.bitseq.length < 2 ^ 32 → i.opcode = opTobytes ∨ i.opcode = opTobytestr →
        val.toNat = bytes.length) → ∃ new r,
      respond i.opcode val bytes s = .next ((s.append new).emit r) ∧ r.echo = i.opcode ∧
      (r.status ≠ .ok → new = [] ∧ r.val = 0 ∧ r.bytes = []) ∧
      (new = [] ∨ s.bitseq.length + new.length ≤ s.cfg.bitCap) ∧
      (new ≠ [] → (∃ value nbits, i = .appendbits value nbits) ∨ ∃ off len, i = .appendstr off len) ∧
      (s.bitseq.length < 2 ^ 32 → r.Ok) := fun val bytes h0 h1 h2 =>
    ⟨[], { echo := i.opcode, status := .ok, val := val, bytes := bytes }, by
      simp only [State.append_nil, respond_eq, true_and, ne_eq, not_true, false_imp_iff, true_or]
      exact fun hs => ⟨fun h => absurd rfl h, fun h => absurd h h0, h1, h2 hs⟩⟩
  have hval : s.bitseq.length < 2 ^ 32 →
      (valOf (byteCount s.bitseq.length)).toNat = (packBytes s.bitseq).length := fun h => by
    rw [packBytes_length, valOf_toNat]
    unfold byteCount
    omega
  cases i with
  | appendbits value nbits =>
    simp only [exec, execAppendbits]
    split
    · exact err .illegalCommand (by decide)
    split
    · exact err .rangeError (by decide)
    split
    · exact err .capacity (by decide)
    · next hc =>
      refine ⟨bitsMsb value.toNat nbits.toNat, _, rfl, rfl, fun h => absurd rfl h, .inr ?_,
        fun _ => .inl ⟨_, _, rfl⟩, fun _ => ⟨fun h => absurd rfl h, fun _ => rfl, fun _ _ => rfl, ?_⟩⟩
      · simp at hc; simpa using hc
      · simp [opAppendbits, opTobytes, opTobytestr]
  | appendstr off len =>
    simp only [exec, execAppendstr]
    split
    · exact err .bufferRange (by decide)
    split
    · exact err .capacity (by decide)
    · next hc =>
      refine ⟨stringBits (Memory.range s.buf off.toNat len.toNat), _, rfl, rfl,
        fun h => absurd rfl h, .inr ?_,
        fun _ => .inr ⟨_, _, rfl⟩, fun _ => ⟨fun h => absurd rfl h, fun _ => rfl, fun _ _ => rfl, ?_⟩⟩
      · simp at hc; simpa using hc
      · simp [opAppendstr, opTobytes, opTobytestr]
  | bitlen => exact quiet _ _ (by decide) (fun _ _ => rfl) (fun _ h => absurd h (by decide))
  | bytelen => exact quiet _ _ (by decide) (fun _ _ => rfl) (fun _ h => absurd h (by decide))
  | tobytes => exact quiet _ _ (by decide) (fun h => absurd rfl h) (fun hs _ => hval hs)
  | tobytestr => exact quiet _ _ (by decide) (fun _ h => absurd rfl h) (fun hs _ => hval hs)
  | hash e off n seed =>
    simp only [exec, execHash]
    split
    · exact err .bufferRange (by decide)
    · exact quiet _ _ (show ¬(opHash = opAppendbits ∨ opHash = opAppendstr) by decide)
        (fun _ _ => rfl) fun _ h =>
        absurd h (show ¬(opHash = opTobytes ∨ opHash = opTobytestr) by decide)

end Sys2Proof.Machine
end

