-- ==== Sys2Proof/Laws/PerInstr.lean ====
section
/-! SUPPORT. Statements about every instruction as syntax, one lemma for each constructor. -/

/-- The opcode byte of an encoded command is the one its row of 30_encoding.md R64 gives. -/
def Sys2Proof.Laws.OpcodeByte.Statement (i : Sys2Proof.Instr) : Prop :=
  (Sys2Proof.encode i).opcode = i.opcode

namespace Sys2Proof.Laws.OpcodeByte

theorem appendbits (value : Word) (nbits : BitVec 6) : Statement (.appendbits value nbits) :=
  Cmd.opcode_ofFields _ _ _ _ _

theorem appendstr (off len : Word) : Statement (.appendstr off len) := Cmd.opcode_ofFields _ _ _ _ _

theorem bitlen : Statement .bitlen := Cmd.opcode_ofFields _ _ _ _ _

theorem bytelen : Statement .bytelen := Cmd.opcode_ofFields _ _ _ _ _

theorem tobytes : Statement .tobytes := Cmd.opcode_ofFields _ _ _ _ _

theorem tobytestr : Statement .tobytestr := Cmd.opcode_ofFields _ _ _ _ _

theorem hash (e : Endian) (off n seed : Word) : Statement (.hash e off n seed) :=
  Cmd.opcode_ofFields _ _ _ _ _

end Sys2Proof.Laws.OpcodeByte
end

