-- ==== Sys2Proof/Laws/Run.lean ====
section
/-! SUPPORT. A run of the machine, one step at a time. -/
namespace Sys2Proof.Machine

/-- A run of no steps ends where it starts. -/
theorem run_zero (s : State) : Host.Core.run core 0 s = .next s := rfl

/-- A run whose first step answers `t` goes on from `t`. -/
theorem run_succ {s t : State} (k : Nat) (h : step s = .next t) :
    Host.Core.run core (k + 1) s = Host.Core.run core k t := by
  have e := Host.Core.run.eq_2 core s k
  rw [show core.step s = .next t from h] at e
  exact e

/-- A run that ends in a state took a first step, and went on from there. -/
theorem run_succ_next {s u : State} {k : Nat} (h : Host.Core.run core (k + 1) s = .next u) :
    ∃ t, step s = .next t ∧ Host.Core.run core k t = .next u := by
  have e := Host.Core.run.eq_2 core s k
  rw [show core.run k.succ s = .next u from h] at e
  cases hs : core.step s with
  | next t => rw [hs] at e; exact ⟨t, hs, e.symm⟩
  | fault r => rw [hs] at e; cases e
  | refused r => rw [hs] at e; cases e

end Sys2Proof.Machine
end

