-- ==== Sys2Proof/Tests/Slice0.lean ====
section
/-!
SUPPORT. Tests of the model against the spec's vectors (95_test_vectors.md) and worked examples, and for each
statement with hypotheses a state and operands that meet them.
-/
namespace Sys2Proof.Machine.Tests

/-! ### WellFormed refuses what is no command -/

theorem test_wf_refuses_nbits_33 : (Instr.appendbits 0 33).wf = false := by decide
theorem test_wf_takes_nbits_32 : (Instr.appendbits 0 32).wf = true := by decide

/-! ### Words written out from 30_encoding.md R61 and R64, field by field -/

/-- Vector V-C3, the fields of format `B`: opcode, reserved, `nbits`, `value`, zeros. -/
theorem test_decode_appendbits :
    decode (0b00000001#8 ++ 0b000000000000000000#18 ++ 0b100000#6 ++ 0xffffffff#32 ++ 0#32 ++ 0#32) =
      .ok (.appendbits 0xffffffff 32) := by decide

/-- Format `S`: opcode, zeros, `off`, `len`, zeros. -/
theorem test_decode_appendstr :
    decode (0b00000010#8 ++ 0#24 ++ 0x80000001#32 ++ 0x00000002#32 ++ 0#32) =
      .ok (.appendstr 0x80000001 2) := by decide

theorem test_decode_bitlen : decode (0b00000011#8 ++ 0#120) = .ok .bitlen := by decide
theorem test_decode_bytelen : decode (0b00000100#8 ++ 0#120) = .ok .bytelen := by decide
theorem test_decode_tobytes : decode (0b00000101#8 ++ 0#120) = .ok .tobytes := by decide
theorem test_decode_tobytestr : decode (0b00000110#8 ++ 0#120) = .ok .tobytestr := by decide

/-- Format `H`: opcode, zeros, `e`, `off`, `n`, `seed`. -/
theorem test_decode_hash_be :
    decode (0b00010000#8 ++ 0#23 ++ 1#1 ++ 0x00000002#32 ++ 0x00000005#32 ++ 0xdeadbeef#32) =
      .ok (.hash .big 2 5 0xdeadbeef) := by decide

/-- Vectors V-I1 to V-I14: every one is illegal, for the reason the table gives. -/
theorem test_illegal_words :
    [Cmd.ofWords 0 0 0 0, Cmd.ofWords 0x07000000 0 0 0, Cmd.ofWords 0x11000000 0 3 3,
      Cmd.ofWords 0xff000000 0 0 0].map decode = List.replicate 4 (.error .unknownOpcode) ∧
    [Cmd.ofWords 0x01000021 0 0 0, Cmd.ofWords 0x0100003f 0 0 0].map decode =
      List.replicate 2 (.error .nbitsTooLarge) ∧
    [Cmd.ofWords 0x01000043 5 0 0, Cmd.ofWords 0x01000003 5 1 0, Cmd.ofWords 0x02000001 16 2 0,
      Cmd.ofWords 0x02000000 16 2 1, Cmd.ofWords 0x03000000 1 0 0, Cmd.ofWords 0x05800000 0 0 0,
      Cmd.ofWords 0x10000002 0 3 3, Cmd.ofWords 0x10800000 0 3 3].map decode =
      List.replicate 8 (.error .reservedBits) := by decide

/-- The host's numbering of a table word: bit 127 is the top bit of the opcode. -/
theorem test_table_word :
    decodeTableWord 128 0x04000000000000000000000000000000 = some .bytelen := by decide

/-! ### One step against the vectors -/

/-- The response words of the last response, if the step answers a state. -/
def lastWords : Host.Outcome State Fault Refusal → Option (List Word)
  | .next t => t.responses.getLast?.map Response.words
  | .fault _ => none
  | .refused _ => none

/-- `BITSEQ` after the step, if it answers a state. -/
def bitsAfter : Host.Outcome State Fault Refusal → Option (List Bool)
  | .next t => some t.bitseq
  | .fault _ => none
  | .refused _ => none

/-- A block with `BITCAP = 8`, `BUF_SIZE = 9` and `BUF[0..5] = "abcdeA"`, `BITSEQ` as given. -/
def demo (bits : List Bool) : State :=
  { cfg := { bufSize := 9, bitCap := 8 }, bitseq := bits
    buf := [(0, 0x61), (1, 0x62), (2, 0x63), (3, 0x64), (4, 0x65), (5, 0x41)]
    pending := [], responses := [] }

/-- The step of `s` on the command moved as these four words. -/
def issue (s : State) (w0 w1 w2 w3 : Word) : Host.Outcome State Fault Refusal :=
  step { s with pending := [.command (Cmd.ofWords w0 w1 w2 w3)] }

/-- Vector V-E1, second command. -/
theorem test_appendbits : bitsAfter (issue (demo [true, false, true]) 0x01000002 2 0 0) =
    some [true, false, true, true, false] := by decide

/-- Vector V-X6: `RANGE_ERROR` wins over `CAPACITY`. -/
theorem test_appendbits_priority :
    lastWords (issue (demo (List.replicate 8 true)) 0x01000001 2 0 0) = some [0x01000001, 0] := by
  decide

/-- Vector V-E14's bytes after one bit, as V-E16: the string straddles the byte boundary. -/
theorem test_appendstr : bitsAfter (issue (demo []) 0x02000000 5 1 0) =
    some [false, true, false, false, false, false, false, true] := by decide

/-- Vector V-X8: `BUFFER_RANGE` wins over `CAPACITY`. -/
theorem test_appendstr_priority :
    lastWords (issue (demo (List.replicate 8 true)) 0x02000000 9 1 0) = some [0x02000003, 0] := by
  decide

/-- Program P1. -/
theorem test_bitlen : lastWords (issue (demo [true, false, true, true, false]) 0x03000000 0 0 0) =
    some [0x03000000, 5] := by decide

/-- Program P1. -/
theorem test_bytelen : lastWords (issue (demo [true, false, true, true, false]) 0x04000000 0 0 0) =
    some [0x04000000, 1] := by decide

/-- DUK's example E5, vector V-E1. -/
theorem test_tobytes : lastWords (issue (demo [true, false, true, true, false]) 0x05000000 0 0 0) =
    some [0x05000000, 1, 0xb0000000] := by decide

/-- Vector V-E21: 17 bits, three payload bytes in one word. -/
theorem test_tobytestr :
    lastWords (issue (demo (List.replicate 9 true ++ List.replicate 8 false)) 0x06000000 0 0 0) =
      some [0x06000000, 3, 0xff800000] := by decide

/-- Vector V-H10, big-endian: one turn and a tail of one. -/
theorem test_hash_be : lastWords (issue (demo []) 0x10000001 0 5 0) =
    some [0x10000000, 0x6f5506fc] := by decide

/-- Vector V-H7: a tail of three. -/
theorem test_hash_le : lastWords (issue (demo []) 0x10000000 0 3 0) =
    some [0x10000000, 0x13577c9b] := by decide

/-- Vector V-H24 and V-H25: the empty range at the end of `BUF`, and one past it. -/
theorem test_hash_empty_range_edges :
    lastWords (issue (demo []) 0x10000000 9 0 7) = some [0x10000000, 0x82bc6669] ∧
    lastWords (issue (demo []) 0x10000000 10 0 7) = some [0x10000003, 0] := by decide

/-- Vector V-I14: an illegal word answers under its own opcode byte. -/
theorem test_illegal_command :
    lastWords (issue (demo []) 0x10800000 0 3 3) = some [0x10000002, 0] := by decide

/-- 70_reset_and_hazards.md R230: reset. -/
theorem test_reset : bitsAfter (step { demo [true] with pending := [.reset] }) = some [] := by decide

/-! ### Surrounding software, against the values of 43_host_software.md section 6 -/

theorem test_dense_short : denseHash (demo []).buf .little 0 5 0 true = 0x00b4 := by decide
theorem test_sparse_abc : sparseHash (demo []).buf 0 3 0 true = 0x5749 := by decide
theorem test_codepoints : codepointCount [0x7f, 0x80, 0xbf, 0xc0, 0xff] = 3 := by decide

/-! ### Assembler, against 95_test_vectors.md section 6 -/

theorem test_assembler_hash :
    parseLine "HASH.LE 16, 0, 0xdeadbeef ; comment".toList =
      some (.command (.hash .little 16 0 0xdeadbeef)) := by decide
theorem test_assembler_refuses_nbits_33 : parseLine "APPENDBITS 1, 33".toList = none := by decide

/-! ### The hypotheses of the statements can be met -/

theorem witness_ResetLeavesTheEmptySequence :
    (∃ i s t, exec i s = .next t ∧ s.bitseq ≠ []) ∧
    (∃ s t, step s = .next t ∧ s.bitseq ≠ [] ∧ t.bitseq = []) ∧
    ∃ s t rest, s.pending = HostAction.reset :: rest ∧ step s = .next t :=
  ⟨⟨.bitlen, demo [true], _, rfl, by decide⟩,
    ⟨{ demo [true] with pending := [.reset] }, _, rfl, by decide, rfl⟩,
    { demo [true] with pending := [.reset] }, _, [], rfl, rfl⟩

theorem witness_ResetEmptiesOnlyTheSequence :
    ∃ (s : State) (rest : List HostAction), s.pending = .reset :: rest :=
  ⟨{ demo [true] with pending := [.reset] }, [], rfl⟩

/-- At the last address of `BUF`. -/
theorem witness_HostWriteChangesOneByte :
    ∃ (s : State) (rest : List HostAction) (addr : Nat) (v : Byte),
      s.pending = .writeBuf addr v :: rest ∧ Memory.wf s.buf = true ∧ addr < s.cfg.bufSize :=
  ⟨{ demo [] with pending := [.writeBuf 8 1] }, [], 8, 1, by decide⟩

/-- One past the last address of `BUF`. -/
theorem witness_HostWriteOutsideBufFaults :
    ∃ (s : State) (rest : List HostAction) (addr : Nat) (v : Byte),
      s.pending = .writeBuf addr v :: rest ∧ s.cfg.bufSize ≤ addr :=
  ⟨{ demo [] with pending := [.writeBuf 9 1] }, [], 9, 1, by decide⟩

theorem witness_IdleBlockWaits : ∃ s : State, s.pending = [] := ⟨State.reset, rfl⟩

theorem witness_StepRunsTheDecodedCommand :
    ∃ (s : State) (w : Cmd) (rest : List HostAction) (i : Instr),
      s.pending = .command w :: rest ∧ decode w = .ok i :=
  ⟨{ demo [] with pending := [.command (encode .bitlen)] }, encode .bitlen, [], .bitlen, by decide⟩

theorem witness_OpcodeRowsAreDisjoint :
    ∃ (w : Cmd) (r r' : OpcodeRow), r ∈ opcodeRows ∧ r' ∈ opcodeRows ∧ w.selects r = true ∧
      w.selects r' = true :=
  ⟨encode .bitlen, _, _, List.mem_cons_of_mem _ (List.mem_cons_of_mem _ List.mem_cons_self),
    List.mem_cons_of_mem _ (List.mem_cons_of_mem _ List.mem_cons_self), by decide, by decide⟩

theorem witness_LegalWordsAreTheRowsOfTheMap :
    (∃ (w : Cmd) (i : Instr), decode w = .ok i) ∧
    ∃ w : Cmd, ∀ r ∈ opcodeRows, w.selects r = false :=
  ⟨⟨encode (.appendbits 0 32), .appendbits 0 32, by decide⟩, 0, by decide⟩

theorem witness_DecodeOfEncodeIsTheCommand : ∃ i : Instr, i.wf = true :=
  ⟨.appendbits 0xffffffff 32, by decide⟩

theorem witness_EncodeOfDecodeIsTheWord : ∃ (w : Cmd) (i : Instr), decode w = .ok i :=
  ⟨encode (.hash .big 1 2 3), .hash .big 1 2 3, by decide⟩

theorem witness_BitsMsbListsTheLowBitsTopFirst : ∃ w i : Nat, i < w := ⟨1, 0, by decide⟩

/-- Exactly to the capacity, one value too wide, one bit past the capacity; and 32 bits at most. -/
theorem witness_AppendBitsFollowsItsRule :
    (∃ (s : State) (value : Word) (nbits : BitVec 6), nbits.toNat ≤ 32 ∧
      value.toNat < 2 ^ nbits.toNat ∧ s.bitseq.length + nbits.toNat ≤ s.cfg.bitCap) ∧
    (∃ (value : Word) (nbits : BitVec 6), nbits.toNat ≤ 32 ∧ 2 ^ nbits.toNat ≤ value.toNat) ∧
    (∃ (s : State) (value : Word) (nbits : BitVec 6), nbits.toNat ≤ 32 ∧
      value.toNat < 2 ^ nbits.toNat ∧ s.cfg.bitCap < s.bitseq.length + nbits.toNat) ∧
    (∃ (s : State) (value : Word) (nbits : BitVec 6), nbits.toNat = 32 ∧
      value.toNat < 2 ^ nbits.toNat ∧ s.bitseq.length + nbits.toNat ≤ s.cfg.bitCap) :=
  ⟨⟨demo (List.replicate 5 true), 7, 3, by decide⟩, ⟨8, 3, by decide⟩,
    ⟨demo (List.replicate 6 true), 7, 3, by decide⟩, State.reset, 0xffffffff, 32, by decide⟩

theorem witness_OverwideAppendBitsIsIllegal : ∃ nbits : BitVec 6, 32 < nbits.toNat :=
  ⟨33, by decide⟩

/-- A byte that fills the capacity exactly, the last byte of `BUF`; a range one past the end; one
byte too many. -/
theorem witness_AppendStrFollowsItsRule :
    (∃ (s : State) (off len : Word), off.toNat + len.toNat ≤ s.cfg.bufSize ∧
      s.bitseq.length + 8 * len.toNat ≤ s.cfg.bitCap ∧ len ≠ 0) ∧
    (∃ (s : State) (off len : Word), s.cfg.bufSize < off.toNat + len.toNat) ∧
    (∃ (s : State) (off len : Word), off.toNat + len.toNat ≤ s.cfg.bufSize ∧
      s.cfg.bitCap < s.bitseq.length + 8 * len.toNat) :=
  ⟨⟨demo [], 8, 1, by decide⟩, ⟨demo [], 8, 2, by decide⟩, demo [true], 8, 1, by decide⟩

/-- Two chunks of 32 bits, and a pair that fits one append. -/
theorem witness_ChunkedAppendsEqualOneAppend :
    (∃ (s : State) (v p q : Nat), v < 2 ^ (p + q) ∧ p ≤ 32 ∧ q ≤ 32 ∧
      s.bitseq.length + p + q ≤ s.cfg.bitCap ∧ p + q = 64) ∧
    ∃ (s : State) (v p q : Nat), v < 2 ^ (p + q) ∧ p ≤ 32 ∧ q ≤ 32 ∧
      s.bitseq.length + p + q ≤ s.cfg.bitCap ∧ p + q = 32 ∧ v ≠ 0 :=
  ⟨⟨State.reset, 2 ^ 64 - 1, 32, 32, by decide⟩, State.reset, 2 ^ 32 - 1, 20, 12, by decide⟩

theorem witness_AppendStrEqualsItsByteAppends :
    ∃ (s : State) (off len : Word), off.toNat + len.toNat ≤ s.cfg.bufSize ∧
      s.bitseq.length + 8 * len.toNat ≤ s.cfg.bitCap ∧ len ≠ 0 :=
  ⟨demo [], 5, 1, by decide⟩

/-- The hypotheses of `BitLenReportsTheLength`, `ByteLenReportsTheByteCount` and
`ToBytesPacksTheSequence`, on a full sequence. -/
theorem witness_length_within_capacity :
    ∃ s : State, s.cfg.Ok ∧ s.bitseq.length ≤ s.cfg.bitCap ∧ s.bitseq.length = s.cfg.bitCap :=
  ⟨demo (List.replicate 8 true), by decide⟩

theorem witness_LengthAndBytesDetermineTheSequence :
    ∃ l l' : List Bool, l.length = l'.length ∧ packBytes l = packBytes l' :=
  ⟨[true], [true], rfl, rfl⟩

/-- The whole of `BUF`, one byte past it, and the lowest reserved bit set. -/
theorem witness_HashIsTheHashOfItsBytes :
    (∃ (s : State) (off n : Word), off.toNat + n.toNat ≤ s.cfg.bufSize ∧ n = 9) ∧
    (∃ (s : State) (off n : Word), s.cfg.bufSize < off.toNat + n.toNat) ∧
    ∃ (s : State) (w : Cmd) (rest : List HostAction), s.pending = .command w :: rest ∧
      w.extractLsb' 120 8 = 0x10 ∧ w.extractLsb' 97 23 ≠ 0 :=
  ⟨⟨demo [], 0, 9, by decide⟩, ⟨demo [], 1, 9, by decide⟩,
    { demo [] with pending := [.command (Cmd.ofWords 0x10000002 0 3 3)] }, _, [], rfl, by decide⟩

/-- Vector V-H20: the same five bytes at another offset. -/
theorem witness_HashDependsOnItsBytesOnly :
    ∃ (s s' : State) (off off' n : Word), off.toNat + n.toNat ≤ s.cfg.bufSize ∧
      off'.toNat + n.toNat ≤ s'.cfg.bufSize ∧
      (∀ i, i < n.toNat →
        Memory.read s.buf (off.toNat + i) = Memory.read s'.buf (off'.toNat + i)) ∧ n = 5 ∧ off ≠ off' :=
  ⟨demo [], { demo [] with buf := [(2, 0x61), (3, 0x62), (4, 0x63), (5, 0x64), (6, 0x65), (7, 0x79)] },
    0, 2, 5, by decide⟩

theorem witness_HashOfTheEmptyRange :
    ∃ (s : State) (off : Word), off.toNat ≤ s.cfg.bufSize ∧ off = 9 := ⟨demo [], 9, by decide⟩

/-- Three bytes; and four equal bytes, a palindrome. -/
theorem witness_ShortRangesDoNotSeeTheEndianness :
    (∃ n : Word, n.toNat < 4 ∧ n = 3) ∧
    (∃ (s : State) (off n : Word), n = 4 ∧ ∀ j, j < n.toNat / 4 →
      Memory.read s.buf (off.toNat + 4 * j) = Memory.read s.buf (off.toNat + 4 * j + 3) ∧
      Memory.read s.buf (off.toNat + 4 * j + 1) = Memory.read s.buf (off.toNat + 4 * j + 2)) ∧
    ∃ (s : State) (off : Word), off.toNat + 4 ≤ s.cfg.bufSize ∧
      Claims.bytesAt s off.toNat 4 = [0x61, 0x62, 0x63, 0x64] :=
  ⟨⟨3, by decide⟩, ⟨{ demo [] with buf := [(0, 7), (1, 7), (2, 7), (3, 7)] }, 0, 4, by decide⟩,
    demo [], 0, by decide⟩

/-- The three errors of legal commands are raised, each in some state. -/
theorem witness_errors_are_raised :
    (∃ (i : Instr) (s : State), i.wf = true ∧
      exec i s = .next (Claims.answered s (Claims.failed i .rangeError))) ∧
    (∃ (i : Instr) (s : State), exec i s = .next (Claims.answered s (Claims.failed i .bufferRange))) ∧
    ∃ (i : Instr) (s : State), i.wf = true ∧
      exec i s = .next (Claims.answered s (Claims.failed i .capacity)) :=
  ⟨⟨.appendbits 2 1, demo [], by decide, rfl⟩, ⟨.appendstr 9 1, demo [], rfl⟩,
    .appendbits 1 1, demo (List.replicate 8 true), by decide, rfl⟩

theorem witness_IllegalWordsAnswerIllegalCommand :
    (∃ (s : State) (w : Cmd) (rest : List HostAction), s.pending = .command w :: rest ∧
      ∀ i, decode w ≠ .ok i) ∧
    ∃ (s t : State) (w : Cmd) (rest : List HostAction) (i : Instr), s.pending = .command w :: rest ∧
      decode w = .ok i ∧ step s = .next t :=
  ⟨⟨{ demo [] with pending := [.command 0] }, 0, [], rfl, fun i h =>
      absurd ((show decode 0 = .error .unknownOpcode by decide).symm.trans h) (by simp)⟩,
    { demo [] with pending := [.command (encode .bitlen)] }, _, encode .bitlen, [], .bitlen, rfl,
    by decide, rfl⟩

theorem witness_ErrorsChangeNothing :
    ∃ (s t : State) (w : Cmd) (rest : List HostAction) (r : Response),
      s.pending = .command w :: rest ∧ step s = .next t ∧ t.responses = s.responses ++ [r] ∧
      r.status ≠ .ok :=
  ⟨{ demo [] with pending := [.command 0] }, _, 0, [], _, rfl, rfl, rfl, by decide⟩

theorem witness_ReadingCommandsChangeNothing :
    ∃ (i : Instr) (s t : State),
      (i = .bitlen ∨ i = .bytelen ∨ i = .tobytes ∨ i = .tobytestr ∨
        ∃ e off n seed, i = .hash e off n seed) ∧ exec i s = .next t :=
  ⟨.bitlen, demo [true], _, .inl rfl, rfl⟩

/-- A successful append of each kind. -/
theorem witness_AppendsChangeOnlyTheEndOfTheSequence :
    (∃ (i : Instr) (s t : State) (width : Nat),
      (∃ value nbits, i = .appendbits value nbits ∧ width = nbits.toNat) ∧ exec i s = .next t) ∧
    ∃ (i : Instr) (s t : State) (width : Nat),
      (∃ off len, i = .appendstr off len ∧ width = 8 * len.toNat) ∧ exec i s = .next t :=
  ⟨⟨.appendbits 1 1, demo [], _, 1, ⟨1, 1, rfl, rfl⟩, rfl⟩,
    .appendstr 5 1, demo [], _, 8, ⟨5, 1, rfl, rfl⟩, rfl⟩

/-- Each clause of the write table, on a step that answers a state. -/
theorem witness_StepWriteTable :
    (∃ s t w, step s = .next t ∧ s.pending.head? = some (HostAction.command w) ∧
      t.bitseq ≠ s.bitseq) ∧
    (∃ s t, step s = .next t ∧ s.pending.head? = some HostAction.reset) ∧
    (∃ s t addr v, step s = .next t ∧ s.pending.head? = some (HostAction.writeBuf addr v) ∧
      Memory.wf s.buf = true) ∧
    ∃ s t, step s = .next t ∧ s.pending = [] :=
  ⟨⟨{ demo [] with pending := [.command (encode (.appendbits 1 1))] }, _, _, rfl, rfl, by decide⟩,
    ⟨{ demo [] with pending := [.reset] }, _, rfl, rfl⟩,
    ⟨{ demo [] with pending := [.writeBuf 8 1] }, _, 8, 1, rfl, rfl, by decide⟩,
    State.reset, _, rfl, rfl⟩

theorem witness_ResponseWordsLayout :
    ∃ (r : Response) (j i : Nat), j < (payloadWords r.bytes).length ∧ i < 4 ∧ i = 3 :=
  ⟨{ echo := opTobytes, status := .ok, val := 1, bytes := [0xb0] }, 0, 3, by decide⟩

/-- A sequence of 9 bits, at the last bit of its one payload word. -/
theorem witness_PayloadWordsAreTheSequenceInPieces :
    ∃ (l : List Bool) (p : Nat), p < 32 * (payloadWords (packBytes l)).length ∧ p = 31 :=
  ⟨List.replicate 9 true, 31, by decide⟩

/-- A state of `demo` with this queue and a sequence within its capacity has the invariant. -/
theorem demo_inv (bits : List Bool) (pending : List HostAction) (h : bits.length ≤ 8) :
    State.Inv { demo bits with pending := pending } :=
  ⟨(by decide : (demo []).cfg.Ok), (by decide : Memory.wf (demo []).buf = true),
    (by decide : ∀ c ∈ (demo []).buf, c.1 < (demo []).cfg.bufSize), h,
    (by decide : ∀ r ∈ (demo []).responses, r.Ok)⟩

theorem witness_ResetMeetsTheInvariant :
    ∃ (cfg : Config) (buf : Memory), cfg.Ok ∧ Memory.wf buf = true ∧ (∀ c ∈ buf, c.1 < cfg.bufSize) ∧
      buf ≠ [] :=
  ⟨(demo []).cfg, (demo []).buf, by decide⟩

theorem witness_StepKeepsTheInvariant : ∃ s t : State, s.Inv ∧ step s = .next t :=
  ⟨{ demo [true] with pending := [.command (encode .tobytes)] }, _,
    demo_inv [true] [.command (encode .tobytes)] (by decide), rfl⟩

/-- A host that writes the last byte of `BUF` and then issues a command. -/
theorem witness_EveryCommandIsAnsweredInOrder : ∃ s : State, s.HostInRange ∧ s.pending.length = 2 := by
  refine ⟨{ demo [] with pending := [.writeBuf 8 1, .command (encode .bitlen)] }, ?_, rfl⟩
  intro addr v h
  simp only [List.mem_cons, HostAction.writeBuf.injEq, List.not_mem_nil, or_false, reduceCtorEq] at h
  rw [h.1]
  decide

/-- A state whose next step answers a state has a run of one step. -/
theorem run_one {s : State} (h : ∃ t, step s = .next t) : ∃ t, Host.Core.run core 1 s = .next t :=
  h.imp fun t ht => (run_succ 0 ht).trans (run_zero t)

/-- `demo` with one command issued. -/
def issued (i : Instr) : State := { demo [] with pending := [.command (encode i)] }

theorem witness_SequenceOnlyGrowsWithoutReset :
    ∃ (k : Nat) (s t : State), HostAction.reset ∉ s.pending.take k ∧
      Host.Core.run core k s = .next t ∧ k = 1 := by
  obtain ⟨t, ht⟩ := run_one (s := issued (.appendbits 1 1)) ⟨_, rfl⟩
  exact ⟨1, _, t, by decide, ht, rfl⟩

theorem witness_LengthIsTheSumOfTheSuccessfulAppends :
    ∃ (ws : List Cmd) (s t : State), s.pending = ws.map HostAction.command ∧
      Host.Core.run core ws.length s = .next t ∧ ws ≠ [] := by
  obtain ⟨t, ht⟩ := run_one (s := issued (.appendbits 1 1)) ⟨_, rfl⟩
  exact ⟨[encode (.appendbits 1 1)], _, t, rfl, ht, by decide⟩

/-- Two states that differ in the responses emitted so far. -/
theorem witness_ResponsesAreNeverReadBack :
    ∃ (k : Nat) (s s' t : State), s'.cfg = s.cfg ∧ s'.bitseq = s.bitseq ∧ s'.buf = s.buf ∧
      s'.pending = s.pending ∧ Host.Core.run core k s = .next t ∧ s'.responses ≠ s.responses := by
  obtain ⟨t, ht⟩ := run_one (s := issued .bitlen) ⟨_, rfl⟩
  exact ⟨1, issued .bitlen,
    { issued .bitlen with
      responses := [{ echo := 0, status := .illegalCommand, val := 0, bytes := [] }] },
    t, rfl, rfl, rfl, rfl, ht, by decide⟩

/-- A run that holds a command to leave out. -/
theorem witness_OnlyAppendsAndHostMovesMatter :
    ∃ s t : State, Host.Core.run core s.pending.length s = .next t ∧
      s.pending.filter Claims.matters ≠ s.pending := by
  obtain ⟨t, ht⟩ := run_one (s := issued .bitlen) ⟨_, rfl⟩
  exact ⟨issued .bitlen, t, ht, by decide⟩

/-- The least value too wide for 8 bits, and the greatest that fits. -/
theorem witness_RangeErrorExactlyWhenTheValueIsTooWide :
    (∃ i : Instr, i.wf = true ∧ ∃ value nbits, i = .appendbits value nbits ∧
      value >>> nbits.toNat ≠ 0) ∧
    ∃ (value : Word) (nbits : BitVec 6), (Instr.appendbits value nbits).wf = true ∧
      value >>> nbits.toNat = 0 ∧ value = 255 ∧ nbits = 8 :=
  ⟨⟨.appendbits 256 8, by decide, 256, 8, rfl, by decide⟩, 255, 8, by decide⟩

/-- One byte past the end of `BUF`, for each command with a range. -/
theorem witness_BufferRangeExactlyWhenTheRangeLeavesBuf :
    ∃ (s : State) (off n : Word), s.cfg.bufSize < off.toNat + n.toNat ∧ off.toNat = s.cfg.bufSize ∧
      n = 1 :=
  ⟨demo [], 9, 1, by decide⟩

/-- One bit past the capacity, by each append. -/
theorem witness_CapacityExactlyWhenTheAppendDoesNotFit :
    (∃ (s : State) (value : Word) (nbits : BitVec 6), (Instr.appendbits value nbits).wf = true ∧
      value.toNat < 2 ^ nbits.toNat ∧ s.cfg.bitCap < s.bitseq.length + nbits.toNat) ∧
    ∃ (s : State) (off len : Word), off.toNat + len.toNat ≤ s.cfg.bufSize ∧
      s.cfg.bitCap < s.bitseq.length + 8 * len.toNat :=
  ⟨⟨demo (List.replicate 8 true), 0, 1, by decide⟩, demo [true], 8, 1, by decide⟩

/-- The whole of `BUF`; and the longest string of the short path, ending where `BUF` does. -/
theorem witness_DenseShortPathIsOneHashCommand :
    (∃ (s : State) (base : Word) (len : Nat), len ≤ 4096 ∧ base.toNat + len ≤ s.cfg.bufSize ∧
      len = 9) ∧
    ∃ (s : State) (base : Word) (len : Nat), len = 4096 ∧ base.toNat + len = s.cfg.bufSize :=
  ⟨⟨demo [], 0, 9, by decide⟩, State.reset, 0, 4096, by decide⟩

theorem witness_DenseShortPathStartsAtTheSeed : ∃ len : Nat, len ≤ 4096 ∧ len = 4096 :=
  ⟨4096, by decide⟩

end Sys2Proof.Machine.Tests
end

section
/-! PROOFS. What a step can do, said once, and the statements about the state that follow from it. -/
namespace Sys2Proof.Machine

/-! ### One command -/

/-- Whatever state a command ends in, it is the old one with some bits appended to `BITSEQ` and one
response emitted. -/
theorem exec_next {i : Instr} {s t : State} (h : exec i s = .next t) :
    ∃ new r, t = (s.append new).emit r ∧ r.echo = i.opcode ∧
      (new ≠ [] → (∃ value nbits, i = .appendbits value nbits) ∨ ∃ off len, i = .appendstr off len) := by
  obtain ⟨new, r, hexec, hecho, -, -, happend, -⟩ := exec_cases i s
  rw [hexec] at h
  exact ⟨new, r, (Host.Outcome.next.inj h).symm, hecho, happend⟩

/-- What an append of `width` bits can do: fail and append nothing, or append exactly that many. -/
def AppendsOrFails (i : Instr) (width : Nat) (s : State) : Prop :=
  ∃ new r, exec i s = .next ((s.append new).emit r) ∧ r.echo = i.opcode ∧
    (r.status = .ok → new.length = width) ∧ (r.status ≠ .ok → new = [])

theorem appendsOrFails_of_raise {i : Instr} {width : Nat} {s : State} (st : Status) (hst : st ≠ .ok)
    (h : exec i s = raise i.opcode st s) : AppendsOrFails i width s :=
  ⟨[], { echo := i.opcode, status := st, val := 0, bytes := [] }, by rw [h, State.append_nil, raise_eq],
    rfl, fun hok => absurd hok hst, fun _ => rfl⟩

theorem appendsOrFails_of_respond {i : Instr} {s : State} (new : List Bool)
    (h : exec i s = respond i.opcode 0 [] (s.append new)) : AppendsOrFails i new.length s :=
  ⟨new, { echo := i.opcode, status := .ok, val := 0, bytes := [] }, by rw [h, respond_eq],
    rfl, fun _ => rfl, fun hne => absurd rfl hne⟩

theorem appendbits_appendsOrFails (value : Word) (nbits : BitVec 6) (s : State) :
    AppendsOrFails (.appendbits value nbits) nbits.toNat s := by
  have hexec : exec (.appendbits value nbits) s = execAppendbits value nbits s := rfl
  unfold execAppendbits at hexec
  split at hexec
  · exact appendsOrFails_of_raise .illegalCommand (by decide) hexec
  split at hexec
  · exact appendsOrFails_of_raise .rangeError (by decide) hexec
  split at hexec
  · exact appendsOrFails_of_raise .capacity (by decide) hexec
  · simpa using appendsOrFails_of_respond _ hexec

theorem appendstr_appendsOrFails (off len : Word) (s : State) :
    AppendsOrFails (.appendstr off len) (8 * len.toNat) s := by
  have hexec : exec (.appendstr off len) s = execAppendstr off len s := rfl
  unfold execAppendstr at hexec
  split at hexec
  · exact appendsOrFails_of_raise .bufferRange (by decide) hexec
  split at hexec
  · exact appendsOrFails_of_raise .capacity (by decide) hexec
  · simpa using appendsOrFails_of_respond _ hexec

/-! ### One step, by the host's next action -/

theorem step_of_pending_nil {s : State} (h : s.pending = []) : step s = .next s := by
  simp [step, State.takeAction, h, idle]

theorem step_of_legal_command {s : State} {w : Cmd} {rest : List HostAction} {i : Instr}
    (h : s.pending = .command w :: rest) (hw : decode w = .ok i) :
    step s = exec i { s with pending := rest } := by
  simp [step, State.takeAction, h, hw]

theorem step_of_illegal_command {s : State} {w : Cmd} {rest : List HostAction} {e : DecodeError}
    (h : s.pending = .command w :: rest) (hw : decode w = .error e) :
    step s = illegalCommand w { s with pending := rest } := by
  simp [step, State.takeAction, h, hw]

theorem step_of_writeBuf {s : State} {addr : Nat} {v : Byte} {rest : List HostAction}
    (h : s.pending = .writeBuf addr v :: rest) :
    step s = hostWrite addr v { s with pending := rest } := by
  simp [step, State.takeAction, h]

theorem step_of_reset {s : State} {rest : List HostAction} (h : s.pending = .reset :: rest) :
    step s = .next { s with pending := rest, bitseq := [] } := by
  simp [step, State.takeAction, h, hostReset]

/-- The opcode of the command a word decodes to is the word's opcode byte (30_encoding.md R68). -/
theorem opcode_of_decode {w : Cmd} {i : Instr} (h : decode w = .ok i) : i.opcode = w.opcode := by
  unfold decode decodeZ at h
  split_ifs at h <;> cases h <;> simp only [Instr.opcode, *]

/-- Everything a step can do to the state, one case for each action of the host
(70_reset_and_hazards.md R236). -/
inductive StepEffect (s : State) : State → Prop
  | idle (hp : s.pending = []) : StepEffect s s
  | command (w : Cmd) (rest : List HostAction) (new : List Bool) (r : Response)
      (hp : s.pending = .command w :: rest) (hecho : r.echo = w.opcode)
      (hfail : r.status ≠ .ok → new = [] ∧ r.val = 0 ∧ r.bytes = [])
      (hcap : new = [] ∨ s.bitseq.length + new.length ≤ s.cfg.bitCap)
      (happend : new ≠ [] → ∃ i, decode w = .ok i ∧
        ((∃ value nbits, i = .appendbits value nbits) ∨ ∃ off len, i = .appendstr off len))
      (hok : s.bitseq.length < 2 ^ 32 → r.Ok) :
      StepEffect s { s with
        pending := rest, bitseq := s.bitseq ++ new, responses := s.responses ++ [r] }
  | write (addr : Nat) (v : Byte) (rest : List HostAction)
      (hp : s.pending = .writeBuf addr v :: rest) (haddr : addr < s.cfg.bufSize) :
      StepEffect s { s with pending := rest, buf := Memory.write s.buf addr v }
  | reset (rest : List HostAction) (hp : s.pending = .reset :: rest) :
      StepEffect s { s with pending := rest, bitseq := [] }

theorem stepEffect_of_legal_command {s t : State} {w : Cmd} {rest : List HostAction} {i : Instr}
    (hp : s.pending = .command w :: rest) (hw : decode w = .ok i) (h : step s = .next t) :
    StepEffect s t := by
  obtain ⟨new, r, hexec, hecho, hfail, hcap, happend, hok⟩ := exec_cases i { s with pending := rest }
  rw [step_of_legal_command hp hw, hexec] at h
  cases h
  have := StepEffect.command w rest new r hp (hecho.trans (opcode_of_decode hw)) hfail hcap
    (fun hne => ⟨i, hw, happend hne⟩) hok
  simpa [State.append, State.emit] using this

theorem stepEffect_of_illegal_command {s t : State} {w : Cmd} {rest : List HostAction}
    {e : DecodeError} (hp : s.pending = .command w :: rest) (hw : decode w = .error e)
    (h : step s = .next t) : StepEffect s t := by
  rw [step_of_illegal_command hp hw, illegalCommand, raise_eq] at h
  cases h
  have := StepEffect.command w rest []
    { echo := w.opcode, status := .illegalCommand, val := 0, bytes := [] } hp rfl
    (fun _ => ⟨rfl, rfl, rfl⟩) (.inl rfl) (fun hne => absurd rfl hne)
    (fun _ => ⟨fun _ => ⟨rfl, rfl⟩, fun _ => rfl, fun _ _ => rfl, fun _ => rfl⟩)
  simpa [State.emit] using this

theorem stepEffect_of_writeBuf {s t : State} {addr : Nat} {v : Byte} {rest : List HostAction}
    (hp : s.pending = .writeBuf addr v :: rest) (h : step s = .next t) : StepEffect s t := by
  rw [step_of_writeBuf hp, hostWrite] at h
  split at h
  · next haddr => cases h; exact .write addr v rest hp haddr
  · cases h

theorem step_effect {s t : State} (h : step s = .next t) : StepEffect s t := by
  cases hp : s.pending with
  | nil =>
    rw [step_of_pending_nil hp] at h
    cases h
    exact .idle hp
  | cons a rest =>
    cases a with
    | command w =>
      cases hw : decode w with
      | ok i => exact stepEffect_of_legal_command hp hw h
      | error e => exact stepEffect_of_illegal_command hp hw h
    | writeBuf addr v => exact stepEffect_of_writeBuf hp h
    | reset =>
      rw [step_of_reset hp] at h
      cases h
      exact .reset rest hp

/-! ### What every step does to the queue and to `BITSEQ` -/

theorem step_pending {s t : State} (h : step s = .next t) : t.pending = s.pending.tail := by
  cases step_effect h <;> simp [*]

/-- Only reset takes away what `BITSEQ` held (10_state.md R23). -/
theorem step_prefix {s t : State} (h : step s = .next t) (hr : s.pending.head? ≠ some .reset) :
    s.bitseq <+: t.bitseq := by
  cases step_effect h with
  | idle => exact List.prefix_rfl
  | command w rest new => exact List.prefix_append _ _
  | write => exact List.prefix_rfl
  | reset rest hp => simp [hp] at hr

/-- A run that meets no reset in its first `k + 1` actions meets none in the first `k` after a step. -/
theorem reset_notMem_take_tail {k : Nat} {l : List HostAction} (h : HostAction.reset ∉ l.take (k + 1)) :
    l.head? ≠ some .reset ∧ HostAction.reset ∉ l.tail.take k := by
  cases l with
  | nil => simp
  | cons a l => simpa [eq_comm] using h

/-! ### The invariant -/

theorem Memory.inside_write {m : Memory} {n addr : Nat} (v : Byte) (hm : ∀ c ∈ m, c.1 < n)
    (haddr : addr < n) : ∀ c ∈ Memory.write m addr v, c.1 < n := by
  intro c hc
  rcases Memory.mem_write m addr v c hc with hold | ⟨rfl, -⟩
  · exact hm c hold
  · exact haddr

theorem State.Inv.bitseq_length_lt {s : State} (h : s.Inv) : s.bitseq.length < 2 ^ 32 := by
  have hcap := h.capacity
  have hcfg := h.cfg.2
  omega

/-- Settles O46, by the cases of what a step can do. -/
theorem stepKeepsTheInvariant : Obligations.StepKeepsTheInvariant := by
  intro s t hs h
  have hlt := hs.bitseq_length_lt
  obtain ⟨hcfg, hbuf, hinside, hcapacity, hresponses⟩ := hs
  cases step_effect h with
  | idle => exact ⟨hcfg, hbuf, hinside, hcapacity, hresponses⟩
  | command w rest new r hp hecho hfail hcap happend hok =>
    refine ⟨hcfg, hbuf, hinside, ?_, ?_⟩
    · rcases hcap with rfl | hcap
      · simpa using hcapacity
      · simpa using hcap
    · intro r' hr'
      rcases List.mem_append.1 hr' with hold | hnew
      · exact hresponses r' hold
      · rw [List.mem_singleton.1 hnew]
        exact hok hlt
  | write addr v rest hp haddr =>
    refine ⟨hcfg, ?_, Memory.inside_write v hinside haddr, hcapacity, hresponses⟩
    exact (Memory.wf_iff _).2 (Memory.canonical_write _ ((Memory.wf_iff _).1 hbuf) addr v)
  | reset rest hp => exact ⟨hcfg, hbuf, hinside, Nat.zero_le _, hresponses⟩

/-- Settles O48, by induction on the number of steps. -/
theorem sequenceOnlyGrowsWithoutReset : Obligations.SequenceOnlyGrowsWithoutReset := by
  intro k
  induction k with
  | zero =>
    intro s t _ hrun
    rw [run_zero] at hrun
    cases hrun
    exact List.prefix_rfl
  | succ k ih =>
    intro s t hr hrun
    obtain ⟨u, hstep, hrest⟩ := run_succ_next hrun
    obtain ⟨hhead, htail⟩ := reset_notMem_take_tail hr
    rw [← step_pending hstep] at htail
    exact (step_prefix hstep hhead).trans (ih u t htail hrest)

/-! ### Frames -/

/-- Settles O39: a command that is no append appends nothing. -/
theorem readingCommandsChangeNothing : Obligations.ReadingCommandsChangeNothing := by
  intro i s t hi h
  obtain ⟨new, r, rfl, hecho, happend⟩ := exec_next h
  have hnew : new = [] := by
    by_contra hne
    rcases happend hne with ⟨_, _, rfl⟩ | ⟨_, _, rfl⟩ <;> simp at hi
  exact ⟨rfl, by simp [hnew], rfl, fun _ => rfl, r, rfl, hecho⟩

/-- Settles O40: each of the two commands appends its width or fails. -/
theorem appendsChangeOnlyTheEndOfTheSequence : Obligations.AppendsChangeOnlyTheEndOfTheSequence := by
  intro i s t width hi h
  have happends : AppendsOrFails i width s := by
    rcases hi with ⟨value, nbits, rfl, rfl⟩ | ⟨off, len, rfl, rfl⟩
    · exact appendbits_appendsOrFails value nbits s
    · exact appendstr_appendsOrFails off len s
  obtain ⟨new, r, hexec, hecho, hok, hfail⟩ := happends
  rw [hexec] at h
  cases h
  exact ⟨rfl, rfl, fun _ => rfl, r, new, rfl, hecho, rfl, hok, hfail⟩

/-- Settles O41, by the cases of what a step can do; in each, the clauses of the other actions do not
apply. -/
theorem stepWriteTable : Obligations.StepWriteTable := by
  intro s t h
  refine ⟨?_, step_pending h, ?_⟩
  · cases step_effect h <;> rfl
  cases step_effect h with
  | idle hp => simp [hp]
  | command w rest new r hp hecho hfail hcap happend hok =>
    simp only [hp, List.head?_cons, Option.some.injEq, HostAction.command.injEq, reduceCtorEq,
      false_imp_iff, implies_true, and_true, true_and, forall_eq']
    exact ⟨⟨new, rfl⟩, fun hne => happend fun hnil => hne (by simp [hnil])⟩
  | write addr v rest hp haddr =>
    simp only [hp, List.head?_cons, Option.some.injEq, HostAction.writeBuf.injEq, reduceCtorEq,
      false_imp_iff, implies_true, and_true, true_and]
    rintro _ _ ⟨rfl, rfl⟩
    exact ⟨haddr, fun hwf => Memory.read_write _ ((Memory.wf_iff _).1 hwf) addr v⟩
  | reset rest hp => simp [hp]

/-! ### Reset -/

@[simp] theorem byteCount_zero : byteCount 0 = 0 := by decide

@[simp] theorem packBytes_nil : packBytes [] = [] :=
  List.eq_nil_of_length_eq_zero (packBytes_length [])

/-- What the empty sequence answers (10_state.md R30). -/
theorem exec_reads_of_bitseq_nil {s : State} (h : s.bitseq = []) :
    exec .bitlen s = .next (Claims.answered s (Claims.done .bitlen 0 [])) ∧
    exec .bytelen s = .next (Claims.answered s (Claims.done .bytelen 0 [])) ∧
    exec .tobytes s = .next (Claims.answered s (Claims.done .tobytes 0 [])) := by
  simp [exec, execBitlen, execBytelen, execTobytes, h, valOf, State.emit, Instr.opcode]

/-- Settles O1: only a reset can shorten `BITSEQ`, as every other step leaves it a beginning of what
follows. -/
theorem resetLeavesTheEmptySequence : Obligations.ResetLeavesTheEmptySequence := by
  refine ⟨fun cfg buf => ⟨rfl, exec_reads_of_bitseq_nil rfl⟩, rfl, ?_, ?_, ?_⟩
  · intro i s t h hne
    obtain ⟨new, r, rfl, -, -⟩ := exec_next h
    exact List.append_ne_nil_of_left_ne_nil hne new
  · intro s t h hne hnil
    by_contra hr
    exact hne (List.prefix_nil.1 (hnil ▸ step_prefix h hr))
  · intro s t rest hp h
    rw [step_of_reset hp] at h
    cases h
    rfl

theorem launch_inv {cfg : Config} {buf : Memory} (hcfg : cfg.Ok) (hbuf : Memory.wf buf = true)
    (hinside : ∀ c ∈ buf, c.1 < cfg.bufSize) : (State.launch cfg buf).Inv :=
  ⟨hcfg, hbuf, hinside, Nat.zero_le _, fun _ hr => absurd hr List.not_mem_nil⟩

/-- Settles O45: `State.reset` is itself a launch state. -/
theorem resetMeetsTheInvariant : Obligations.ResetMeetsTheInvariant :=
  ⟨fun _ _ => launch_inv, launch_inv (by decide) (by decide) fun _ hc => absurd hc List.not_mem_nil⟩

end Sys2Proof.Machine
end

section
/-! PROOFS. Host writes to `BUF`, and the word fetched from four of its bytes. -/
namespace Sys2Proof.Machine

/-! ### Host writes -/

theorem hostWrite_of_lt {s : State} {addr : Nat} (v : Byte) (h : addr < s.cfg.bufSize) :
    hostWrite addr v s = .next { s with buf := Memory.write s.buf addr v } := if_pos h

theorem hostWrite_of_ge {s : State} {addr : Nat} (v : Byte) (h : s.cfg.bufSize ≤ addr) :
    hostWrite addr v s = .fault .hostWriteOutsideBuf := if_neg h.not_gt

/-- Settles O3: the step is the host write, and a canonical `BUF` reads as the write says. -/
theorem hostWriteChangesOneByte : Obligations.HostWriteChangesOneByte := by
  intro s rest addr v hp hwf haddr
  have hstep : step s = .next { s with pending := rest, buf := Memory.write s.buf addr v } :=
    (step_of_writeBuf hp).trans (hostWrite_of_lt v haddr)
  have hread := Memory.read_write s.buf ((Memory.wf_iff _).1 hwf) addr v
  exact ⟨_, hstep, rfl, rfl, rfl, rfl, hread⟩

/-- Settles O4: the step is the host write, which faults there. -/
theorem hostWriteOutsideBufFaults : Obligations.HostWriteOutsideBufFaults :=
  fun _ _ _ v hp haddr => (step_of_writeBuf hp).trans (hostWrite_of_ge v haddr)

/-! ### The word of four bytes -/

/-- A byte put below a number is that number's next digit in base `2 ^ 8`. -/
theorem toNat_append_byte {n : Nat} (x : BitVec n) (b : Byte) :
    (x ++ b).toNat = 2 ^ 8 * x.toNat + b.toNat := by
  rw [BitVec.toNat_append, ← Nat.shiftLeft_add_eq_or_of_lt b.isLt, Nat.shiftLeft_eq, Nat.mul_comm]

/-- Little order puts the last byte on top (20_memory.md R45). -/
theorem fetch32_little (b0 b1 b2 b3 : Byte) :
    fetch32 b0 b1 b2 b3 .little = b3 ++ b2 ++ b1 ++ b0 := by
  refine BitVec.eq_of_getLsbD_eq fun i hi => ?_
  simp only [fetch32, BitVec.getLsbD_or, BitVec.getLsbD_shiftLeft, BitVec.getLsbD_setWidth,
    BitVec.getLsbD_append]
  -- The cases are the byte bit `i` falls in; a byte has no bits from 8 on.
  split_ifs <;> grind

/-- Big order is little order on the bytes reversed (20_memory.md R45). -/
theorem fetch32_big (b0 b1 b2 b3 : Byte) :
    fetch32 b0 b1 b2 b3 .big = fetch32 b3 b2 b1 b0 .little := by
  have or_reverse (x y z w : Word) : x ||| y ||| z ||| w = w ||| z ||| y ||| x := by ac_rfl
  exact or_reverse _ _ _ _

theorem fetch32_little_toNat (b0 b1 b2 b3 : Byte) :
    (fetch32 b0 b1 b2 b3 .little).toNat =
      b0.toNat + 2 ^ 8 * b1.toNat + 2 ^ 16 * b2.toNat + 2 ^ 24 * b3.toNat := by
  simp only [fetch32_little, toNat_append_byte]
  omega

/-- Settles O26: the number of big order is that of little order on the bytes reversed. -/
theorem fetchComposesTheBytes : Obligations.FetchComposesTheBytes := by
  intro b0 b1 b2 b3
  refine ⟨fetch32_little_toNat b0 b1 b2 b3, ?_, fetch32_big b0 b1 b2 b3⟩
  rw [fetch32_big, fetch32_little_toNat]
  omega

end Sys2Proof.Machine
end

section
/-!
PROOFS. The decoder and the encoder, the opcode map, the transport words and the assembler lines.
-/
namespace Sys2Proof

/-! ### The two parts of a modifier -/

/-- A number whose high part is zero is its low part under zeros. -/
theorem zero_append_low_of_high {n k : Nat} {x : BitVec (n + k)} (h : x.extractLsb' k n = 0#n) :
    0#n ++ x.extractLsb' 0 k = x := by
  rw [← h, BitVec.extractLsb'_append_extractLsb']

theorem high_eq_zero_iff {n k : Nat} (x : BitVec (n + k)) :
    x.extractLsb' k n = 0#n ↔ x.toNat / 2 ^ k = 0 := by
  have hx : x.toNat / 2 ^ k < 2 ^ n := by
    rw [Nat.div_lt_iff_lt_mul (by positivity), ← pow_add]
    exact x.isLt
  rw [← BitVec.toNat_inj, BitVec.extractLsb'_toNat, Nat.shiftRight_eq_div_pow, Nat.mod_eq_of_lt hx,
    BitVec.toNat_ofNat, Nat.zero_mod]

/-- A mask of `n` ones above `k` zeros keeps the high part. -/
theorem and_highMask_eq_zero_iff {n k : Nat} (x : BitVec (n + k)) :
    x &&& (BitVec.allOnes n ++ 0#k) = 0#(n + k) ↔ x.extractLsb' k n = 0#n := by
  rw [← BitVec.extractLsb'_append_extractLsb' (x := x), BitVec.and_append, BitVec.and_allOnes,
    BitVec.and_zero, BitVec.extractLsb'_append_eq_left, ← BitVec.zero_append_zero,
    BitVec.append_left_inj]

theorem low_eq_ofNat {n : Nat} (k : Nat) (x : BitVec n) :
    x.extractLsb' 0 k = BitVec.ofNat k (x.toNat % 2 ^ k) := by
  apply BitVec.eq_of_toNat_eq
  simp [BitVec.extractLsb'_toNat]

theorem getLsbD_zero_iff {n : Nat} (x : BitVec n) : x.getLsbD 0 = true ↔ x.toNat % 2 = 1 := by
  simp [BitVec.getLsbD]

theorem ofBool_getLsbD_zero {n : Nat} (x : BitVec n) :
    BitVec.ofBool (x.getLsbD 0) = x.extractLsb' 0 1 := by
  refine BitVec.eq_of_getLsbD_eq fun i hi => ?_
  obtain rfl : i = 0 := by omega
  simp

theorem Endian.bit_ite (b : Bool) : (if b then Endian.big else .little).bit = BitVec.ofBool b := by
  cases b <;> rfl

/-! ### The decoder, opcode by opcode (30_encoding.md R68) -/

theorem decode_of_appendbits {w : Cmd} (h : w.opcode = opAppendbits) : decode w =
    if w.mod.extractLsb' 6 18 = 0 ∧ w.b = 0 ∧ w.c = 0 then
      if (w.mod.extractLsb' 0 6).toNat ≤ 32 then .ok (.appendbits w.a (w.mod.extractLsb' 0 6))
      else .error .nbitsTooLarge
    else .error .reservedBits := if_pos h

theorem decode_of_appendstr {w : Cmd} (h : w.opcode = opAppendstr) : decode w =
    if w.mod = 0 ∧ w.c = 0 then .ok (.appendstr w.a w.b) else .error .reservedBits := by
  simp [decode, h, opAppendbits, opAppendstr]

theorem decode_of_bitlen {w : Cmd} (h : w.opcode = opBitlen) : decode w = decodeZ w .bitlen := by
  simp [decode, h, opAppendbits, opAppendstr, opBitlen]

theorem decode_of_bytelen {w : Cmd} (h : w.opcode = opBytelen) : decode w = decodeZ w .bytelen := by
  simp [decode, h, opAppendbits, opAppendstr, opBitlen, opBytelen]

theorem decode_of_tobytes {w : Cmd} (h : w.opcode = opTobytes) : decode w = decodeZ w .tobytes := by
  simp [decode, h, opAppendbits, opAppendstr, opBitlen, opBytelen, opTobytes]

theorem decode_of_tobytestr {w : Cmd} (h : w.opcode = opTobytestr) :
    decode w = decodeZ w .tobytestr := by
  simp [decode, h, opAppendbits, opAppendstr, opBitlen, opBytelen, opTobytes, opTobytestr]

theorem decode_of_hash {w : Cmd} (h : w.opcode = opHash) : decode w =
    if w.mod.extractLsb' 1 23 = 0 then
      .ok (.hash (if w.mod.getLsbD 0 then .big else .little) w.a w.b w.c)
    else .error .reservedBits := by
  simp [decode, h, opAppendbits, opAppendstr, opBitlen, opBytelen, opTobytes, opTobytestr, opHash]

/-- A byte that is the opcode of none of the seven commands (30_encoding.md R66 (a)). -/
def UnknownOpcode (op : Byte) : Prop :=
  op ≠ opAppendbits ∧ op ≠ opAppendstr ∧ op ≠ opBitlen ∧ op ≠ opBytelen ∧ op ≠ opTobytes ∧
    op ≠ opTobytestr ∧ op ≠ opHash

theorem decode_of_unknownOpcode {w : Cmd} (h : UnknownOpcode w.opcode) :
    decode w = .error .unknownOpcode := by
  obtain ⟨h1, h2, h3, h4, h5, h6, h7⟩ := h
  simp only [decode, if_neg, h1, h2, h3, h4, h5, h6, h7, not_false_eq_true]

theorem opcode_cases (op : Byte) : op = opAppendbits ∨ op = opAppendstr ∨ op = opBitlen ∨
    op = opBytelen ∨ op = opTobytes ∨ op = opTobytestr ∨ op = opHash ∨ UnknownOpcode op := by
  unfold UnknownOpcode
  tauto

theorem decodeZ_eq_ok_iff {w : Cmd} {i j : Instr} :
    decodeZ w i = .ok j ↔ i = j ∧ w.mod = 0 ∧ w.a = 0 ∧ w.b = 0 ∧ w.c = 0 := by
  unfold decodeZ
  split_ifs with h
  · simp [h]
  · simp only [h, and_false]

/-! ### Decoding and encoding undo each other (30_encoding.md R68) -/

theorem Cmd.ofFields_eq_iff {w : Cmd} {op : Byte} {md : BitVec 24} {a b c : Word} :
    Cmd.ofFields op md a b c = w ↔
      w.opcode = op ∧ w.mod = md ∧ w.a = a ∧ w.b = b ∧ w.c = c := by
  constructor
  · rintro rfl
    simp
  · rintro ⟨rfl, rfl, rfl, rfl, rfl⟩
    exact Cmd.ofFields_fields w

/-- Settles O11, constructor by constructor: each operand is put where the decoder reads it. -/
theorem decodeOfEncodeIsTheCommand : Obligations.DecodeOfEncodeIsTheCommand := by
  intro i hwf
  cases i with
  | appendbits value nbits =>
    have hn : nbits.toNat ≤ 32 := of_decide_eq_true hwf
    simp [decode_of_appendbits, encode, hn]
  | appendstr off len => simp [decode_of_appendstr, encode]
  | bitlen => simp [decode_of_bitlen, decodeZ_eq_ok_iff, encode]
  | bytelen => simp [decode_of_bytelen, decodeZ_eq_ok_iff, encode]
  | tobytes => simp [decode_of_tobytes, decodeZ_eq_ok_iff, encode]
  | tobytestr => simp [decode_of_tobytestr, decodeZ_eq_ok_iff, encode]
  | hash e off n seed => cases e <;> simp [decode_of_hash, encode, Endian.bit]

theorem encode_of_decodeZ {w : Cmd} {i j : Instr} (h : decodeZ w i = .ok j)
    (hi : encode i = Cmd.ofFields w.opcode 0 0 0 0) (hwf : i.wf = true) :
    encode j = w ∧ j.wf = true := by
  obtain ⟨rfl, hzero⟩ := decodeZ_eq_ok_iff.1 h
  exact ⟨hi.trans (Cmd.ofFields_eq_iff.2 ⟨rfl, hzero⟩), hwf⟩

/-- Settles O12, opcode by opcode: what the decoder does not read it has found to be zero. -/
theorem encodeOfDecodeIsTheWord : Obligations.EncodeOfDecodeIsTheWord := by
  intro w i h
  rcases opcode_cases w.opcode with hop | hop | hop | hop | hop | hop | hop | hop
  · rw [decode_of_appendbits hop] at h
    split_ifs at h with hzero hn
    cases h
    obtain ⟨hmod, hb, hc⟩ := hzero
    exact ⟨Cmd.ofFields_eq_iff.2 ⟨hop, (zero_append_low_of_high hmod).symm, rfl, hb, hc⟩,
      decide_eq_true hn⟩
  · rw [decode_of_appendstr hop] at h
    split_ifs at h with hzero
    cases h
    exact ⟨Cmd.ofFields_eq_iff.2 ⟨hop, hzero.1, rfl, rfl, hzero.2⟩, rfl⟩
  · exact encode_of_decodeZ ((decode_of_bitlen hop).symm.trans h) (by rw [hop]; rfl) rfl
  · exact encode_of_decodeZ ((decode_of_bytelen hop).symm.trans h) (by rw [hop]; rfl) rfl
  · exact encode_of_decodeZ ((decode_of_tobytes hop).symm.trans h) (by rw [hop]; rfl) rfl
  · exact encode_of_decodeZ ((decode_of_tobytestr hop).symm.trans h) (by rw [hop]; rfl) rfl
  · rw [decode_of_hash hop] at h
    by_cases hmod : w.mod.extractLsb' 1 23 = 0
    · rw [if_pos hmod] at h
      cases h
      refine ⟨Cmd.ofFields_eq_iff.2 ⟨hop, ?_, rfl, rfl, rfl⟩, rfl⟩
      rw [Endian.bit_ite, ofBool_getLsbD_zero]
      exact (zero_append_low_of_high (n := 23) (k := 1) hmod).symm
    · rw [if_neg hmod] at h
      cases h
  · rw [decode_of_unknownOpcode hop] at h
    cases h

/-! ### The decoder by the five fields -/

theorem toOption_ite {ε α : Type} (p : Prop) [Decidable p] (x : α) (e : ε) :
    (if p then Except.ok x else .error e).toOption = if p then some x else none := by
  split <;> rfl

theorem toOption_ite_error {ε α : Type} (p : Prop) [Decidable p] (e e' : ε) :
    (if p then Except.error e else .error e' : Except ε α).toOption = none := by
  split <;> rfl

/-- Settles O10, opcode by opcode: only the line of that opcode is left of the spec's. -/
theorem decoderReadsTheFields : Obligations.DecoderReadsTheFields := by
  intro op md a b c
  rcases opcode_cases op with rfl | rfl | rfl | rfl | rfl | rfl | rfl | hop
  · have hreserved : md.extractLsb' 6 18 = 0#18 ↔ md.toNat / 64 = 0 :=
      high_eq_zero_iff (n := 18) (k := 6) md
    have hnbits : md.extractLsb' 0 6 = BitVec.ofNat 6 (md.toNat % 64) := low_eq_ofNat 6 md
    rw [decode_of_appendbits (by simp)]
    by_cases hn : md.toNat % 64 ≤ 32
    · simp [opAppendbits, hreserved, hnbits, hn, toOption_ite]
    · simp [opAppendbits, hn, toOption_ite_error]
  · rw [decode_of_appendstr (by simp)]
    simp [opAppendstr, toOption_ite]
  · rw [decode_of_bitlen (by simp)]
    simp [opBitlen, decodeZ, toOption_ite]
  · rw [decode_of_bytelen (by simp)]
    simp [opBytelen, decodeZ, toOption_ite]
  · rw [decode_of_tobytes (by simp)]
    simp [opTobytes, decodeZ, toOption_ite]
  · rw [decode_of_tobytestr (by simp)]
    simp [opTobytestr, decodeZ, toOption_ite]
  · have hreserved : md.extractLsb' 1 23 = 0#23 ↔ md.toNat / 2 = 0 :=
      high_eq_zero_iff (n := 23) (k := 1) md
    rw [decode_of_hash (by simp)]
    simp [-BitVec.getLsbD_eq_getElem, opHash, hreserved, getLsbD_zero_iff, toOption_ite]
  · rw [decode_of_unknownOpcode (by simpa using hop)]
    obtain ⟨h1 : op ≠ 0x01, h2 : op ≠ 0x02, h3 : op ≠ 0x03, h4 : op ≠ 0x04, h5 : op ≠ 0x05,
      h6 : op ≠ 0x06, h7 : op ≠ 0x10⟩ := hop
    simp only [h1, h2, h3, h4, h5, h6, h7, false_and, if_false]
    rfl

/-! ### The opcode map (30_encoding.md R64) -/

/-- A row of the opcode map written by its fields; every row tests the whole opcode byte. -/
def OpcodeRow.ofFields (mnemonic : String) (op : Byte) (md : BitVec 24) (a b c : Word) :
    OpcodeRow :=
  { mnemonic := mnemonic
    pattern := Cmd.ofFields op 0 0 0 0
    mask := Cmd.ofFields (BitVec.allOnes 8) md a b c }

theorem opcodeRows_eq_ofFields : opcodeRows =
    [ .ofFields "APPENDBITS" opAppendbits (BitVec.allOnes 18 ++ 0#6) 0 (BitVec.allOnes 32)
        (BitVec.allOnes 32),
      .ofFields "APPENDSTR" opAppendstr (BitVec.allOnes 24) 0 0 (BitVec.allOnes 32),
      .ofFields "BITLEN" opBitlen (BitVec.allOnes 24) (BitVec.allOnes 32) (BitVec.allOnes 32)
        (BitVec.allOnes 32),
      .ofFields "BYTELEN" opBytelen (BitVec.allOnes 24) (BitVec.allOnes 32) (BitVec.allOnes 32)
        (BitVec.allOnes 32),
      .ofFields "TOBYTES" opTobytes (BitVec.allOnes 24) (BitVec.allOnes 32) (BitVec.allOnes 32)
        (BitVec.allOnes 32),
      .ofFields "TOBYTESTR" opTobytestr (BitVec.allOnes 24) (BitVec.allOnes 32)
        (BitVec.allOnes 32) (BitVec.allOnes 32),
      .ofFields "HASH" opHash (BitVec.allOnes 23 ++ 0#1) 0 0 0 ] := by
  decide

section
variable {mnemonic : String} {op : Byte} {md : BitVec 24} {a b c : Word}

@[simp] theorem OpcodeRow.ofFields_mnemonic :
    (OpcodeRow.ofFields mnemonic op md a b c).mnemonic = mnemonic := rfl

@[simp] theorem OpcodeRow.ofFields_opcode :
    (OpcodeRow.ofFields mnemonic op md a b c).pattern.opcode = op := Cmd.opcode_ofFields _ _ _ _ _

/-- A mask of fields is a mask on each field. -/
theorem Cmd.selects_ofFields {w : Cmd} : w.selects (.ofFields mnemonic op md a b c) = true ↔
    w.opcode = op ∧ w.mod &&& md = 0#24 ∧ w.a &&& a = 0#32 ∧ w.b &&& b = 0#32 ∧
      w.c &&& c = 0#32 := by
  have hand (m : Cmd) : (w &&& m).opcode = w.opcode &&& m.opcode ∧
      (w &&& m).mod = w.mod &&& m.mod ∧ (w &&& m).a = w.a &&& m.a ∧
      (w &&& m).b = w.b &&& m.b ∧ (w &&& m).c = w.c &&& m.c :=
    ⟨BitVec.extractLsb'_and, BitVec.extractLsb'_and, BitVec.extractLsb'_and,
      BitVec.extractLsb'_and, BitVec.extractLsb'_and⟩
  rw [Cmd.selects, beq_iff_eq, eq_comm, OpcodeRow.ofFields, Cmd.ofFields_eq_iff]
  simp only [hand, Cmd.opcode_ofFields, Cmd.mod_ofFields, Cmd.a_ofFields, Cmd.b_ofFields,
    Cmd.c_ofFields, BitVec.and_allOnes]
  rfl
end

theorem opcode_eq_of_selects {w : Cmd} : ∀ r ∈ opcodeRows, w.selects r = true →
    w.opcode = r.pattern.opcode := by
  simp only [opcodeRows_eq_ofFields, List.forall_mem_cons, Cmd.selects_ofFields,
    OpcodeRow.ofFields_opcode]
  exact ⟨And.left, And.left, And.left, And.left, And.left, And.left, And.left,
    fun _ h => absurd h List.not_mem_nil⟩

theorem opcodeRow_eq_of_opcode_eq : ∀ r ∈ opcodeRows, ∀ r' ∈ opcodeRows,
    r.pattern.opcode = r'.pattern.opcode → r = r' := by decide

/-- Settles O8: a row fixes the opcode byte of the words it takes, and no two rows fix the same. -/
theorem opcodeRowsAreDisjoint : Obligations.OpcodeRowsAreDisjoint :=
  fun _ r r' hr hr' h h' => opcodeRow_eq_of_opcode_eq r hr r' hr'
    ((opcode_eq_of_selects r hr h).symm.trans (opcode_eq_of_selects r' hr' h'))

/-- The legal words by their fields, format by format (30_encoding.md R61, R66). -/
def Cmd.Legal (w : Cmd) : Prop :=
  (w.opcode = opAppendbits ∧ w.mod.extractLsb' 6 18 = 0 ∧ w.b = 0 ∧ w.c = 0 ∧
      (w.mod.extractLsb' 0 6).toNat ≤ 32) ∨
    (w.opcode = opAppendstr ∧ w.mod = 0 ∧ w.c = 0) ∨
    ((w.opcode = opBitlen ∨ w.opcode = opBytelen ∨ w.opcode = opTobytes ∨ w.opcode = opTobytestr) ∧
      w.mod = 0 ∧ w.a = 0 ∧ w.b = 0 ∧ w.c = 0) ∨
    (w.opcode = opHash ∧ w.mod.extractLsb' 1 23 = 0)

theorem encode_legal {i : Instr} (h : i.wf = true) : (encode i).Legal := by
  cases i with
  | appendbits value nbits =>
    have hn : nbits.toNat ≤ 32 := of_decide_eq_true h
    exact .inl (by simp [encode, hn])
  | appendstr off len => exact .inr (.inl (by simp [encode]))
  | bitlen | bytelen | tobytes | tobytestr => exact .inr (.inr (.inl (by simp [encode])))
  | hash e off n seed => exact .inr (.inr (.inr (by simp [encode])))

theorem decode_isOk_iff_legal (w : Cmd) : (∃ i, decode w = .ok i) ↔ w.Legal := by
  constructor
  · rintro ⟨i, h⟩
    obtain ⟨rfl, hwf⟩ := encodeOfDecodeIsTheWord w i h
    exact encode_legal hwf
  · rintro (⟨hop, hmod, hb, hc, hn⟩ | ⟨hop, hmod, hc⟩ | ⟨hop | hop | hop | hop, hzero⟩ |
      ⟨hop, hmod⟩)
    · exact ⟨_, by rw [decode_of_appendbits hop, if_pos ⟨hmod, hb, hc⟩, if_pos hn]⟩
    · exact ⟨_, by rw [decode_of_appendstr hop, if_pos ⟨hmod, hc⟩]⟩
    · exact ⟨_, (decode_of_bitlen hop).trans (decodeZ_eq_ok_iff.2 ⟨rfl, hzero⟩)⟩
    · exact ⟨_, (decode_of_bytelen hop).trans (decodeZ_eq_ok_iff.2 ⟨rfl, hzero⟩)⟩
    · exact ⟨_, (decode_of_tobytes hop).trans (decodeZ_eq_ok_iff.2 ⟨rfl, hzero⟩)⟩
    · exact ⟨_, (decode_of_tobytestr hop).trans (decodeZ_eq_ok_iff.2 ⟨rfl, hzero⟩)⟩
    · exact ⟨_, by rw [decode_of_hash hop, if_pos hmod]⟩

theorem nbits_eq_low_mod (w : Cmd) : w.extractLsb' 96 6 = w.mod.extractLsb' 0 6 := by
  refine BitVec.eq_of_getLsbD_eq fun i hi => ?_
  simp [Cmd.mod, hi, show i < 24 by omega]

/-- The rows' masks test the reserved bits of each format and nothing else (30_encoding.md R65). -/
theorem exists_row_iff_legal (w : Cmd) : (∃ r ∈ opcodeRows, w.selects r = true ∧
    (r.mnemonic = "APPENDBITS" → (w.extractLsb' 96 6).toNat ≤ 32)) ↔ w.Legal := by
  have hB : w.mod &&& (BitVec.allOnes 18 ++ 0#6) = 0#24 ↔ w.mod.extractLsb' 6 18 = 0#18 :=
    and_highMask_eq_zero_iff (n := 18) (k := 6) w.mod
  have hH : w.mod &&& (BitVec.allOnes 23 ++ 0#1) = 0#24 ↔ w.mod.extractLsb' 1 23 = 0#23 :=
    and_highMask_eq_zero_iff (n := 23) (k := 1) w.mod
  simp only [opcodeRows_eq_ofFields, nbits_eq_low_mod, List.exists_mem_cons_iff,
    Cmd.selects_ofFields, OpcodeRow.ofFields_mnemonic, BitVec.and_allOnes, hB, hH, Cmd.Legal]
  simp [or_and_right, or_assoc, and_assoc]

/-- Settles O9: both sides are the legal words by their fields. -/
theorem legalWordsAreTheRowsOfTheMap : Obligations.LegalWordsAreTheRowsOfTheMap :=
  fun w => (decode_isOk_iff_legal w).trans (exists_row_iff_legal w).symm

/-! ### Transport (30_encoding.md R62) -/

theorem Cmd.words_eq (w : Cmd) : w.words = [w.opcode ++ w.mod, w.a, w.b, w.c] := by
  have h0 : w.opcode ++ w.mod = w.extractLsb' 96 32 :=
    BitVec.extractLsb'_append_extractLsb'_eq_extractLsb' rfl
  rw [h0]
  rfl

theorem Cmd.ofWords_append (op : Byte) (md : BitVec 24) (a b c : Word) :
    Cmd.ofWords (op ++ md) a b c = Cmd.ofFields op md a b c := rfl

theorem Cmd.words_ofWords (w0 w1 w2 w3 : Word) :
    (Cmd.ofWords w0 w1 w2 w3).words = [w0, w1, w2, w3] := by
  have h0 : w0.extractLsb' 24 8 ++ w0.extractLsb' 0 24 = w0 :=
    BitVec.extractLsb'_append_extractLsb' (w := 8) (len := 24)
  rw [← h0, Cmd.ofWords_append, Cmd.words_eq]
  simp only [Cmd.opcode_ofFields, Cmd.mod_ofFields, Cmd.a_ofFields, Cmd.b_ofFields, Cmd.c_ofFields]

/-- Settles O7: the first word is the opcode over the modifier, the others are fields. -/
theorem transportWordsCarryTheCommand : Obligations.TransportWordsCarryTheCommand :=
  ⟨fun w => ⟨_, _, _, _, w.words_eq, w.ofFields_fields, rfl, rfl, rfl, rfl⟩, Cmd.words_ofWords,
    by decide⟩

/-! ### Fixed words and lines -/

/-- Settles O13, by evaluating the decoder on each word. -/
theorem vectorWordsDecode : Obligations.VectorWordsDecode := by
  unfold Obligations.VectorWordsDecode
  decide

/-- Settles O57, by evaluating the assembler on each line. -/
theorem assemblerSpellsTheCommands : Obligations.AssemblerSpellsTheCommands := by
  unfold Obligations.AssemblerSpellsTheCommands
  decide

end Sys2Proof
end

section
/-! PROOFS. The words of a response, and the payload words of `TOBYTES` as pieces of `BITSEQ`. -/
namespace Sys2Proof.Machine

/-! ### The words of a response (30_encoding.md R71, R72) -/

/-- Settles O42, by the five statuses. -/
theorem statusCodesAreTheFive : Obligations.StatusCodesAreTheFive := by
  refine ⟨rfl, rfl, rfl, rfl, rfl, ?_, ?_⟩
  · intro st
    cases st <;> decide
  · intro st st'
    cases st <;> cases st' <;> decide

theorem headWord_fields (r : Response) : r.headWord.extractLsb' 24 8 = r.echo ∧
    r.headWord.extractLsb' 8 16 = 0 ∧ r.headWord.extractLsb' 0 8 = r.status.code := by
  refine ⟨?_, ?_, BitVec.extractLsb'_append_eq_right⟩
  · rw [Response.headWord, BitVec.extractLsb'_append_eq_of_le (by decide)]
    exact BitVec.extractLsb'_append_eq_left
  · rw [Response.headWord, BitVec.extractLsb'_append_eq_of_le (by decide)]
    exact BitVec.extractLsb'_append_eq_right

theorem extractLsb'_payloadWord (bytes : List Byte) (j : Nat) {i : Nat} (hi : i < 4) :
    (payloadWord bytes j).extractLsb' (24 - 8 * i) 8 = bytes.getD (4 * j + i) 0 := by
  unfold payloadWord
  interval_cases i
  · rw [BitVec.extractLsb'_append_eq_of_le (by decide),
      BitVec.extractLsb'_append_eq_of_le (by decide)]
    exact BitVec.extractLsb'_append_eq_left
  · rw [BitVec.extractLsb'_append_eq_of_le (by decide),
      BitVec.extractLsb'_append_eq_of_le (by decide)]
    exact BitVec.extractLsb'_append_eq_right
  · rw [BitVec.extractLsb'_append_eq_of_le (by decide)]
    exact BitVec.extractLsb'_append_eq_right
  · exact BitVec.extractLsb'_append_eq_right

@[simp] theorem payloadWords_length (bytes : List Byte) :
    (payloadWords bytes).length = (bytes.length + 3) / 4 := by
  simp [payloadWords]

theorem payloadWords_getD (bytes : List Byte) {j : Nat} (hj : j < (payloadWords bytes).length) :
    (payloadWords bytes).getD j 0 = payloadWord bytes j := by
  rw [List.getD_eq_getElem _ _ hj]
  simp [payloadWords]

/-- Settles O43, field by field of the first word and byte by byte of the payload words. -/
theorem responseWordsLayout : Obligations.ResponseWordsLayout := by
  refine ⟨fun r => ?_, by decide⟩
  obtain ⟨hecho, hzero, hcode⟩ := headWord_fields r
  have hlen := payloadWords_length r.bytes
  refine ⟨r.headWord, payloadWords r.bytes, rfl, hecho, hzero, hcode, by omega, by omega, ?_⟩
  intro j i hj hi
  rw [payloadWords_getD _ hj, extractLsb'_payloadWord _ _ hi]

/-! ### The bits of the packed sequence (41_bitstream_encoder.md R110) -/

theorem getLsbD_bitOrPad (bits : List Bool) (p i : Nat) :
    (bitOrPad bits p).getLsbD i = (decide (i = 0) && bits.getD p false) := by
  unfold bitOrPad
  cases bits.getD p false <;> simp

theorem getLsbD_packByte (bits : List Bool) (j : Nat) {q : Nat} (hq : q < 8) :
    (packByte bits j).getLsbD (7 - q) = bits.getD (8 * j + q) false := by
  simp only [packByte, BitVec.getLsbD_or, BitVec.getLsbD_shiftLeft, getLsbD_bitOrPad]
  interval_cases q <;> simp

/-- Past the last byte both sides are padding. -/
theorem getLsbD_packBytes_getD (bits : List Bool) (j : Nat) {q : Nat} (hq : q < 8) :
    ((packBytes bits).getD j 0).getLsbD (7 - q) = bits.getD (8 * j + q) false := by
  have hlen := packBytes_length bits
  unfold byteCount at hlen
  by_cases hj : j < (packBytes bits).length
  · rw [List.getD_eq_getElem _ _ hj, ← getLsbD_packByte bits j hq]
    simp [packBytes]
  · rw [List.getD_eq_default _ _ (by omega), List.getD_eq_default _ _ (by omega)]
    simp

theorem getLsbD_payloadWord (bytes : List Byte) (j : Nat) {i q : Nat} (hi : i < 4) (hq : q < 8) :
    (payloadWord bytes j).getLsbD (31 - (8 * i + q)) =
      (bytes.getD (4 * j + i) 0).getLsbD (7 - q) := by
  have hbit : 31 - (8 * i + q) = 24 - 8 * i + (7 - q) := by omega
  rw [← extractLsb'_payloadWord bytes j hi, BitVec.getLsbD_extractLsb', decide_eq_true (by omega),
    Bool.true_and, hbit]

/-- Settles O44: bit `p` is bit `p mod 8` of byte `p mod 32 / 8` of word `p / 32`. -/
theorem payloadWordsAreTheSequenceInPieces : Obligations.PayloadWordsAreTheSequenceInPieces := by
  intro l p hp
  have hbit : 31 - p % 32 = 31 - (8 * (p % 32 / 8) + p % 8) := by omega
  have hpos : 8 * (4 * (p / 32) + p % 32 / 8) + p % 8 = p := by omega
  rw [payloadWords_getD _ (by omega), hbit, getLsbD_payloadWord _ _ (by omega) (by omega),
    getLsbD_packBytes_getD _ _ (by omega), hpos]

end Sys2Proof.Machine
end

section
/-! PROOFS. The command a step performs, and that every command word is answered. -/
namespace Sys2Proof.Machine

/-- Settles O6: it is the step's equation for a legal command. -/
theorem stepRunsTheDecodedCommand : Obligations.StepRunsTheDecodedCommand :=
  fun _ _ _ _ => step_of_legal_command

/-- Settles O16: it is the first check of `APPENDBITS`. -/
theorem overwideAppendBitsIsIllegal : Obligations.OverwideAppendBitsIsIllegal :=
  fun _ _ _ h => if_pos h

/-! ### Answers along a run -/

/-- A host that writes only addresses of `BUF` never stops the block. -/
theorem step_next_of_hostInRange {s : State} (h : s.HostInRange) : ∃ t, step s = .next t := by
  cases hp : s.pending with
  | nil => exact ⟨_, step_of_pending_nil hp⟩
  | cons a rest =>
    cases a with
    | command w =>
      cases hw : decode w with
      | ok i =>
        obtain ⟨new, r, hexec, -⟩ := exec_cases i { s with pending := rest }
        exact ⟨_, (step_of_legal_command hp hw).trans hexec⟩
      | error e => exact ⟨_, (step_of_illegal_command hp hw).trans (raise_eq _ _ _)⟩
    | writeBuf addr v =>
      have haddr : addr < s.cfg.bufSize := h addr v (by simp [hp])
      exact ⟨_, (step_of_writeBuf hp).trans (hostWrite_of_lt v haddr)⟩
    | reset => exact ⟨_, step_of_reset hp⟩

theorem hostInRange_of_step {s t : State} (hs : s.HostInRange) (h : step s = .next t) :
    t.HostInRange := by
  intro addr v hmem
  have hcfg : t.cfg = s.cfg := (stepWriteTable s t h).1
  rw [step_pending h] at hmem
  rw [hcfg]
  exact hs addr v (List.mem_of_mem_tail hmem)

/-- A step answers the host's next action if that is a command word, and nothing else. -/
theorem step_responses {s t : State} (h : step s = .next t) :
    ∃ rs, t.responses = s.responses ++ rs ∧
      rs.map Response.echo = Claims.opcodes (s.pending.take 1) := by
  cases step_effect h with
  | idle hp => exact ⟨[], by simp [hp, Claims.opcodes]⟩
  | command w rest new r hp hecho => exact ⟨[r], rfl, by simp [hp, hecho, Claims.opcodes]⟩
  | write addr v rest hp => exact ⟨[], by simp [hp, Claims.opcodes]⟩
  | reset rest hp => exact ⟨[], by simp [hp, Claims.opcodes]⟩

theorem opcodes_take_append_tail (l : List HostAction) :
    Claims.opcodes (l.take 1) ++ Claims.opcodes l.tail = Claims.opcodes l := by
  rw [Claims.opcodes, Claims.opcodes, ← List.filterMap_append, ← List.drop_one,
    List.take_append_drop, Claims.opcodes]

/-- Settles O47, by induction on the number of the host's actions. -/
theorem everyCommandIsAnsweredInOrder : Obligations.EveryCommandIsAnsweredInOrder := by
  intro s
  induction hn : s.pending.length generalizing s with
  | zero =>
    intro _
    have hp : s.pending = [] := List.eq_nil_of_length_eq_zero hn
    exact ⟨s, [], run_zero s, hp, by simp, by simp [hp, Claims.opcodes]⟩
  | succ n ih =>
    intro hs
    obtain ⟨u, hstep⟩ := step_next_of_hostInRange hs
    obtain ⟨rs, hresp, hecho⟩ := step_responses hstep
    have hpending := step_pending hstep
    obtain ⟨t, rs', hrun, hdone, hresp', hecho'⟩ :=
      ih u (by simp [hpending, hn]) (hostInRange_of_step hs hstep)
    refine ⟨t, rs ++ rs', (run_succ n hstep).trans hrun, hdone, ?_, ?_⟩
    · rw [hresp', hresp, List.append_assoc]
    · rw [List.map_append, hecho, hecho', hpending, opcodes_take_append_tail]

end Sys2Proof.Machine
end

section
/-! PROOFS. The bits of a number and of a string of bytes, and the bytes they pack to. -/
namespace Sys2Proof.Machine

/-! ### The bits of a number (41_bitstream_encoder.md R101, R102) -/

theorem bitsMsb_eq_map (v w : Nat) :
    bitsMsb v w = (List.range w).map fun i => v.testBit (w - 1 - i) := by
  induction w with
  | zero => rfl
  | succ w ih =>
    rw [bitsMsb_succ, ih, List.range_succ_eq_map, List.map_cons, List.map_map]
    congr 1
    refine List.map_congr_left fun i _ => ?_
    have hpos : w - 1 - i = w + 1 - 1 - (i + 1) := by omega
    rw [hpos]
    rfl

theorem bitsMsb_toNat {n : Nat} (x : BitVec n) (w : Nat) :
    bitsMsb x.toNat w = (List.range w).map fun i => x.getLsbD (w - 1 - i) := bitsMsb_eq_map _ _

/-- Only the low `w` bits of `v` are listed. -/
theorem bitsMsb_mod (v w : Nat) : bitsMsb (v % 2 ^ w) w = bitsMsb v w := by
  rw [bitsMsb_eq_map, bitsMsb_eq_map]
  refine List.map_congr_left fun i hi => ?_
  have hlt : w - 1 - i < w := by have := List.mem_range.1 hi; omega
  rw [Nat.testBit_mod_two_pow, decide_eq_true hlt, Bool.true_and]

/-- The top `p` bits, then the low `q`. -/
theorem bitsMsb_add (v p q : Nat) :
    bitsMsb v (p + q) = bitsMsb (v / 2 ^ q) p ++ bitsMsb (v % 2 ^ q) q := by
  rw [bitsMsb_mod]
  induction p with
  | zero => simp
  | succ p ih =>
    rw [Nat.add_right_comm, bitsMsb_succ, bitsMsb_succ, ih, Nat.testBit_div_two_pow,
      List.cons_append]

/-- Settles O14: bit `i` of the list is the bit of `v` the rule names. -/
theorem bitsMsbListsTheLowBitsTopFirst : Obligations.BitsMsbListsTheLowBitsTopFirst := by
  refine ⟨fun v w => ⟨bitsMsb_length v w, fun i hi => ?_⟩, by decide⟩
  rw [bitsMsb_eq_map, List.getElem?_map, List.getElem?_range hi, Option.map_some,
    Nat.testBit_eq_decide_div_mod_eq, beq_eq_decide]

/-! ### The bits of a string (41_bitstream_encoder.md R104) -/

theorem bitsMsb_byte_getD (x : Byte) {q : Nat} (hq : q < 8) :
    (bitsMsb x.toNat 8).getD q false = x.getLsbD (7 - q) := by
  rw [bitsMsb_toNat, List.getD_eq_getElem _ _ (by simpa using hq)]
  simp

/-- Past the last byte both sides are `false`. -/
theorem stringBits_getD (xs : List Byte) (p : Nat) :
    (stringBits xs).getD p false = (xs.getD (p / 8) 0).getLsbD (7 - p % 8) := by
  induction xs generalizing p with
  | nil => simp
  | cons x xs ih =>
    rw [stringBits_cons]
    by_cases hp : p < 8
    · rw [List.getD_append _ _ _ _ (by simpa using hp), bitsMsb_byte_getD x hp,
        Nat.div_eq_of_lt hp, Nat.mod_eq_of_lt hp, List.getD_cons_zero]
    · have hdiv : p / 8 = (p - 8) / 8 + 1 := by omega
      have hmod : p % 8 = (p - 8) % 8 := by omega
      rw [List.getD_append_right _ _ _ _ (by simpa using hp), bitsMsb_length, ih, hdiv, hmod,
        List.getD_cons_succ]

theorem stringBits_range (m : Memory) (off n : Nat) : stringBits (Memory.range m off n) =
    (List.range (8 * n)).map fun p => (Memory.read m (off + p / 8)).getLsbD (7 - p % 8) := by
  refine List.ext_getElem (by simp) fun p hp _ => ?_
  have hbyte : p / 8 < (Memory.range m off n).length := by
    rw [stringBits_length] at hp
    omega
  rw [← List.getD_eq_getElem _ false hp, stringBits_getD, List.getD_eq_getElem _ _ hbyte,
    Memory.range_getElem, List.getElem_map, List.getElem_range]

/-! ### Packing loses nothing (41_bitstream_encoder.md R110, R112) -/

theorem byteCount_bounds (n : Nat) : n ≤ 8 * byteCount n ∧ 8 * byteCount n < n + 8 := by
  unfold byteCount
  omega

theorem byteCount_le (n : Nat) : byteCount n ≤ n := by
  unfold byteCount
  omega

/-- Bit `p` of a sequence, or its padding, read off the bytes the sequence packs to. -/
theorem packBytes_bit (l : List Bool) (p : Nat) :
    ((packBytes l).getD (p / 8) 0).getLsbD (7 - p % 8) = l.getD p false := by
  rw [getLsbD_packBytes_getD l _ (Nat.mod_lt _ (by decide)), Nat.div_add_mod]

/-- Settles O24: each bit of a sequence stands in its bytes. -/
theorem lengthAndBytesDetermineTheSequence : Obligations.LengthAndBytesDetermineTheSequence := by
  intro l l' hlen hbytes
  refine List.ext_getElem hlen fun p hp hp' => ?_
  rw [← List.getD_eq_getElem l false hp, ← List.getD_eq_getElem l' false hp', ← packBytes_bit,
    hbytes, packBytes_bit]

/-- Settles O25: byte `j` of the packed bits has the bits of byte `j` of the string. -/
theorem packedStringIsTheString : Obligations.PackedStringIsTheString := by
  intro xs
  refine List.ext_getElem (by simp [byteCount]; omega) fun j hj hj' => ?_
  refine BitVec.eq_of_getLsbD_eq fun i hi => ?_
  have hdiv : (8 * j + (7 - i)) / 8 = j := by omega
  have hmod : 7 - (8 * j + (7 - i)) % 8 = i := by omega
  have hbit := packBytes_bit (stringBits xs) (8 * j + (7 - i))
  rwa [stringBits_getD, hdiv, hmod, List.getD_eq_getElem _ _ hj, List.getD_eq_getElem _ _ hj']
    at hbit

end Sys2Proof.Machine
end

section
/-! PROOFS. What each command of the encoder answers. -/
namespace Sys2Proof.Machine

/-! ### `APPENDBITS` (41_bitstream_encoder.md R100) -/

section
variable {s : State} {value : Word} {nbits : BitVec 6}

theorem exec_appendbits_of_fits (hn : nbits.toNat ≤ 32) (hv : value.toNat < 2 ^ nbits.toNat)
    (hcap : s.bitseq.length + nbits.toNat ≤ s.cfg.bitCap) :
    exec (.appendbits value nbits) s = .next ((s.append (bitsMsb value.toNat nbits.toNat)).emit
      (Claims.done (.appendbits value nbits) 0 [])) := by
  simp only [exec, execAppendbits, valueTooWide_iff, passesCapacity_iff]
  rw [if_neg hn.not_gt, if_neg hv.not_ge, if_neg hcap.not_gt]
  rfl

theorem exec_appendbits_of_tooWide (hn : nbits.toNat ≤ 32) (hv : 2 ^ nbits.toNat ≤ value.toNat) :
    exec (.appendbits value nbits) s =
      .next (Claims.answered s (Claims.failed (.appendbits value nbits) .rangeError)) := by
  simp only [exec, execAppendbits, valueTooWide_iff]
  rw [if_neg hn.not_gt, if_pos hv]
  rfl

theorem exec_appendbits_of_full (hn : nbits.toNat ≤ 32) (hv : value.toNat < 2 ^ nbits.toNat)
    (hcap : s.cfg.bitCap < s.bitseq.length + nbits.toNat) :
    exec (.appendbits value nbits) s =
      .next (Claims.answered s (Claims.failed (.appendbits value nbits) .capacity)) := by
  simp only [exec, execAppendbits, valueTooWide_iff, passesCapacity_iff]
  rw [if_neg hn.not_gt, if_neg hv.not_ge, if_pos hcap]
  rfl

end

/-- Settles O15, by the three outcomes of the two checks. -/
theorem appendBitsFollowsItsRule : Obligations.AppendBitsFollowsItsRule := by
  intro s value nbits hn
  refine ⟨fun hv hcap => ?_, exec_appendbits_of_tooWide hn, exec_appendbits_of_full hn⟩
  rw [exec_appendbits_of_fits hn hv hcap, bitsMsb_toNat]
  rfl

/-- An append of a number that fits, its operands written as numbers. -/
theorem exec_appendbits_ofNat {s : State} {v w : Nat} (hw : w ≤ 32) (hv : v < 2 ^ w)
    (hcap : s.bitseq.length + w ≤ s.cfg.bitCap) :
    exec (.appendbits (BitVec.ofNat 32 v) (BitVec.ofNat 6 w)) s =
      .next ((s.append (bitsMsb v w)).emit
        (Claims.done (.appendbits (BitVec.ofNat 32 v) (BitVec.ofNat 6 w)) 0 [])) := by
  have hvalue : (BitVec.ofNat 32 v).toNat = v :=
    Nat.mod_eq_of_lt (hv.trans_le (Nat.pow_le_pow_right (by decide) hw))
  have hnbits : (BitVec.ofNat 6 w).toNat = w := Nat.mod_eq_of_lt (by omega)
  have hexec := exec_appendbits_of_fits (s := s) (value := BitVec.ofNat 32 v)
    (nbits := BitVec.ofNat 6 w)
  rw [hvalue, hnbits] at hexec
  exact hexec hw hv hcap

/-! ### `APPENDSTR` (41_bitstream_encoder.md R104) -/

section
variable {s : State} {off len : Word}

theorem exec_appendstr_of_fits (hbuf : off.toNat + len.toNat ≤ s.cfg.bufSize)
    (hcap : s.bitseq.length + 8 * len.toNat ≤ s.cfg.bitCap) :
    exec (.appendstr off len) s =
      .next ((s.append (stringBits (Memory.range s.buf off.toNat len.toNat))).emit
        (Claims.done (.appendstr off len) 0 [])) := by
  simp only [exec, execAppendstr, rangeLeavesBuf_iff, passesCapacity_iff]
  rw [if_neg hbuf.not_gt, if_neg hcap.not_gt]
  rfl

theorem exec_appendstr_of_outside (hbuf : s.cfg.bufSize < off.toNat + len.toNat) :
    exec (.appendstr off len) s =
      .next (Claims.answered s (Claims.failed (.appendstr off len) .bufferRange)) := by
  simp only [exec, execAppendstr, rangeLeavesBuf_iff]
  rw [if_pos hbuf]
  rfl

theorem exec_appendstr_of_full (hbuf : off.toNat + len.toNat ≤ s.cfg.bufSize)
    (hcap : s.cfg.bitCap < s.bitseq.length + 8 * len.toNat) :
    exec (.appendstr off len) s =
      .next (Claims.answered s (Claims.failed (.appendstr off len) .capacity)) := by
  simp only [exec, execAppendstr, rangeLeavesBuf_iff, passesCapacity_iff]
  rw [if_neg hbuf.not_gt, if_pos hcap]
  rfl

end

/-- Settles O17, by the three outcomes of the two checks. -/
theorem appendStrFollowsItsRule : Obligations.AppendStrFollowsItsRule := by
  intro s off len
  refine ⟨fun hbuf hcap => ?_, exec_appendstr_of_outside, exec_appendstr_of_full⟩
  rw [exec_appendstr_of_fits hbuf hcap, stringBits_range]
  rfl

/-! ### Appends in a row (41_bitstream_encoder.md R102, R105) -/

theorem performAll_cons {i : Instr} {s t : State} (is : List Instr) (h : exec i s = .next t) :
    Claims.performAll (i :: is) s = Claims.performAll is t := by
  rw [Claims.performAll, h]

/-- Settles O18: the bits of the two chunks are the bits of the whole. -/
theorem chunkedAppendsEqualOneAppend : Obligations.ChunkedAppendsEqualOneAppend := by
  refine ⟨fun v p q _ => bitsMsb_add v p q, fun s v p q hv hp hq hcap => ?_⟩
  have hhigh : v / 2 ^ q < 2 ^ p := Nat.div_lt_of_lt_mul (by rwa [← Nat.pow_add, Nat.add_comm])
  have hlow : v % 2 ^ q < 2 ^ q := Nat.mod_lt _ (by positivity)
  have hfirst := exec_appendbits_ofNat (s := s) hp hhigh (by omega)
  refine ⟨_, (performAll_cons _ hfirst).trans
    (performAll_cons _ (exec_appendbits_ofNat hq hlow (by simpa using hcap))), ?_, ?_, ?_⟩
  · simp [bitsMsb_add]
  · simp
  · intro hpq
    exact ⟨_, exec_appendbits_ofNat hpq hv (by omega), by simp [bitsMsb_add]⟩

/-- The byte-wide appends of a list of bytes. -/
theorem performAll_byteAppends (xs : List Byte) (s : State)
    (hcap : s.bitseq.length + 8 * xs.length ≤ s.cfg.bitCap) :
    Claims.performAll (xs.map fun x => .appendbits (x.setWidth 32) 8) s = .next { s with
      bitseq := s.bitseq ++ stringBits xs
      responses := s.responses ++
        List.replicate xs.length (Claims.done (.appendbits 0 8) 0 []) } := by
  induction xs generalizing s with
  | nil => simp [Claims.performAll]
  | cons x xs ih =>
    rw [List.length_cons] at hcap
    have hvalue : (x.setWidth 32).toNat = x.toNat := BitVec.toNat_setWidth_of_le (by decide)
    have hexec := exec_appendbits_of_fits (s := s) (value := x.setWidth 32) (nbits := 8)
      (by decide) (hvalue ▸ x.isLt) (by simp; omega)
    rw [List.map_cons, performAll_cons _ hexec, ih _ (by simp; omega), hvalue]
    simp [State.append, State.emit, List.replicate_succ, Instr.opcode]

/-- Settles O19: both append the bits of the range's bytes. -/
theorem appendStrEqualsItsByteAppends : Obligations.AppendStrEqualsItsByteAppends := by
  intro s off len hbuf hcap
  have hbytes := performAll_byteAppends (Memory.range s.buf off.toNat len.toNat) s
    (by simpa using hcap)
  rw [Memory.range, List.map_map] at hbytes
  exact ⟨_, _, exec_appendstr_of_fits hbuf hcap, hbytes, rfl, rfl, rfl, by simp⟩

/-! ### The reading commands (41_bitstream_encoder.md R108 to R111) -/

theorem length_lt_of_cfg_ok {s : State} (hcfg : s.cfg.Ok) (hlen : s.bitseq.length ≤ s.cfg.bitCap) :
    s.bitseq.length < 2 ^ 32 := by
  have hcap := hcfg.2
  omega

/-- The `val` of `BYTELEN` and `TOBYTES` loses nothing within `BITCAP`. -/
theorem valOf_byteCount_toNat {s : State} (hcfg : s.cfg.Ok)
    (hlen : s.bitseq.length ≤ s.cfg.bitCap) :
    (valOf (byteCount s.bitseq.length)).toNat = byteCount s.bitseq.length :=
  valOf_toNat _ ((byteCount_le _).trans_lt (length_lt_of_cfg_ok hcfg hlen))

/-- Settles O20: the length is a `u32`. -/
theorem bitLenReportsTheLength : Obligations.BitLenReportsTheLength :=
  fun _ hcfg hlen => ⟨_, valOf_toNat _ (length_lt_of_cfg_ok hcfg hlen), rfl⟩

/-- Settles O21: the number of bytes is a `u32`, and the least that holds the bits. -/
theorem byteLenReportsTheByteCount : Obligations.ByteLenReportsTheByteCount := by
  refine ⟨by decide, fun s hcfg hlen => ⟨_, ?_, ?_, rfl⟩⟩ <;> rw [valOf_byteCount_toNat hcfg hlen]
  · exact (byteCount_bounds _).1
  · exact (byteCount_bounds _).2

/-- Settles O22: the bytes are the packed sequence, whose every bit is known. -/
theorem toBytesPacksTheSequence : Obligations.ToBytesPacksTheSequence := by
  refine ⟨by decide, by decide, fun s hcfg hlen => ?_⟩
  have hcount := packBytes_length s.bitseq
  obtain ⟨henough, hleast⟩ := byteCount_bounds s.bitseq.length
  rw [← hcount] at henough hleast
  exact ⟨_, packBytes s.bitseq, (valOf_byteCount_toNat hcfg hlen).trans hcount.symm, henough, hleast,
    fun p _ => packBytes_bit s.bitseq p, rfl⟩

/-- Settles O23: the two commands answer the same packed sequence. -/
theorem toByteStrAnswersAsToBytes : Obligations.ToByteStrAnswersAsToBytes :=
  ⟨by decide, fun _ => ⟨_, _, rfl, rfl⟩⟩

end Sys2Proof.Machine
end

section
/-! PROOFS. Runs: how far `BITSEQ` grows, and the host's actions `BITSEQ` and `BUF` depend on. -/
namespace Sys2Proof.Machine

/-! ### The length of `BITSEQ` along a run (41_bitstream_encoder.md R103, R108) -/

/-- How many bits a command appends when it is answered `OK` (41_bitstream_encoder.md R100, R104). -/
def appendWidth : Instr → Nat
  | .appendbits _ nbits => nbits.toNat
  | .appendstr _ len => 8 * len.toNat
  | .bitlen => 0
  | .bytelen => 0
  | .tobytes => 0
  | .tobytestr => 0
  | .hash _ _ _ _ => 0

theorem appendedBits_of_status_ne_ok (w : Cmd) {st : Status} (h : st ≠ .ok) :
    Claims.appendedBits w st = 0 := by
  cases st
  case ok => exact absurd rfl h
  all_goals rfl

theorem appendedBits_of_decode {w : Cmd} {i : Instr} (hw : decode w = .ok i) :
    Claims.appendedBits w .ok = appendWidth i := by
  unfold Claims.appendedBits
  rw [hw]
  cases i <;> rfl

theorem appendsOrFails_of_no_append {i : Instr} (s : State)
    (hi : ¬((∃ value nbits, i = .appendbits value nbits) ∨ ∃ off len, i = .appendstr off len)) :
    AppendsOrFails i 0 s := by
  obtain ⟨new, r, hexec, hecho, -, -, happend, -⟩ := exec_cases i s
  have hnew : new = [] := by_contra fun hne => hi (happend hne)
  exact ⟨new, r, hexec, hecho, fun _ => by rw [hnew, List.length_nil], fun _ => hnew⟩

/-- Every command appends its width or fails; the commands that only read have width 0. -/
theorem exec_appendsOrFails (i : Instr) (s : State) : AppendsOrFails i (appendWidth i) s := by
  cases i with
  | appendbits value nbits => exact appendbits_appendsOrFails value nbits s
  | appendstr off len => exact appendstr_appendsOrFails off len s
  | bitlen => exact appendsOrFails_of_no_append s (by simp)
  | bytelen => exact appendsOrFails_of_no_append s (by simp)
  | tobytes => exact appendsOrFails_of_no_append s (by simp)
  | tobytestr => exact appendsOrFails_of_no_append s (by simp)
  | hash e off n seed => exact appendsOrFails_of_no_append s (by simp)

theorem step_command_length {s t : State} {w : Cmd} {rest : List HostAction}
    (hp : s.pending = .command w :: rest) (h : step s = .next t) :
    ∃ r, t.responses = s.responses ++ [r] ∧
      t.bitseq.length = s.bitseq.length + Claims.appendedBits w r.status := by
  cases hw : decode w with
  | ok i =>
    obtain ⟨new, r, hexec, -, hok, hfail⟩ := exec_appendsOrFails i { s with pending := rest }
    rw [step_of_legal_command hp hw, hexec] at h
    cases h
    refine ⟨r, rfl, ?_⟩
    by_cases hst : r.status = .ok
    · rw [hst, appendedBits_of_decode hw, ← hok hst]
      simp
    · rw [appendedBits_of_status_ne_ok w hst, hfail hst]
      simp
  | error e =>
    rw [step_of_illegal_command hp hw, illegalCommand, raise_eq] at h
    cases h
    exact ⟨_, rfl, by rw [appendedBits_of_status_ne_ok w (st := .illegalCommand) (by decide)]; rfl⟩

/-- Settles O49, by induction on the command words. -/
theorem lengthIsTheSumOfTheSuccessfulAppends : Obligations.LengthIsTheSumOfTheSuccessfulAppends := by
  intro ws
  induction ws with
  | nil =>
    intro s t _ hrun
    cases (run_zero s).symm.trans hrun
    exact ⟨[], by simp⟩
  | cons w ws ih =>
    intro s t hp hrun
    obtain ⟨u, hstep, hrest⟩ := run_succ_next hrun
    obtain ⟨r, hresp, hlen⟩ := step_command_length hp hstep
    obtain ⟨rs, hresp', hcount, hlen'⟩ := ih u t (by rw [step_pending hstep, hp]; rfl) hrest
    refine ⟨r :: rs, by simp [hresp', hresp], by simp [hcount], ?_⟩
    rw [hlen', hlen, List.zip_cons_cons, List.map_cons, List.sum_cons, Nat.add_assoc]

/-! ### What the block's answer depends on (10_state.md R28, R33) -/

/-- The same parameters, `BITSEQ` and `BUF`: the state of the block itself (10_state.md R29), whatever
the host has still to do and has been answered. -/
structure SameBlock (s s' : State) : Prop where
  cfg : s'.cfg = s.cfg
  bitseq : s'.bitseq = s.bitseq
  buf : s'.buf = s.buf

namespace SameBlock
variable {s s' : State}

theorem passesCapacity (h : SameBlock s s') (width : Nat) :
    passesCapacity s' width = Machine.passesCapacity s width := by
  rw [Machine.passesCapacity, Machine.passesCapacity, h.cfg, h.bitseq]

theorem rangeLeavesBuf (h : SameBlock s s') (off n : Nat) :
    rangeLeavesBuf s' off n = Machine.rangeLeavesBuf s off n := by
  rw [Machine.rangeLeavesBuf, Machine.rangeLeavesBuf, h.cfg]

theorem with_pending (h : SameBlock s s') (pending pending' : List HostAction) :
    SameBlock { s with pending := pending } { s' with pending := pending' } :=
  ⟨h.cfg, h.bitseq, h.buf⟩

theorem append_emit (h : SameBlock s s') (new : List Bool) (r : Response) :
    SameBlock ((s.append new).emit r) ((s'.append new).emit r) :=
  ⟨h.cfg, by simp [h.bitseq], h.buf⟩

end SameBlock

/-- The two outcomes append the same bits to `s` and to `s'` and emit the same response. -/
def AnswersAlike (s s' : State) (o o' : Host.Outcome State Fault Refusal) : Prop :=
  ∃ new r, o = .next ((s.append new).emit r) ∧ o' = .next ((s'.append new).emit r)

theorem answersAlike_raise (s s' : State) (echo : Byte) (st : Status) :
    AnswersAlike s s' (raise echo st s) (raise echo st s') :=
  ⟨[], { echo := echo, status := st, val := 0, bytes := [] }, by simp, by simp⟩

theorem answersAlike_respond_append (s s' : State) (new : List Bool) (echo : Byte) (val : Word)
    (bytes : List Byte) :
    AnswersAlike s s' (respond echo val bytes (s.append new))
      (respond echo val bytes (s'.append new)) :=
  ⟨new, _, rfl, rfl⟩

theorem answersAlike_respond (s s' : State) (echo : Byte) (val : Word) (bytes : List Byte) :
    AnswersAlike s s' (respond echo val bytes s) (respond echo val bytes s') := by
  simpa only [State.append_nil] using answersAlike_respond_append s s' [] echo val bytes

/-- A command's answer and what it appends depend on the block alone. -/
theorem exec_sameBlock {s s' : State} (h : SameBlock s s') (i : Instr) :
    AnswersAlike s s' (exec i s) (exec i s') := by
  cases i with
  | appendbits value nbits =>
    simp only [exec, execAppendbits, h.passesCapacity]
    split_ifs
    · exact answersAlike_raise s s' _ _
    · exact answersAlike_raise s s' _ _
    · exact answersAlike_raise s s' _ _
    · exact answersAlike_respond_append s s' _ _ _ _
  | appendstr off len =>
    simp only [exec, execAppendstr, h.rangeLeavesBuf, h.passesCapacity, h.buf]
    split_ifs
    · exact answersAlike_raise s s' _ _
    · exact answersAlike_raise s s' _ _
    · exact answersAlike_respond_append s s' _ _ _ _
  | bitlen =>
    simp only [exec, execBitlen, h.bitseq]
    exact answersAlike_respond s s' _ _ _
  | bytelen =>
    simp only [exec, execBytelen, h.bitseq]
    exact answersAlike_respond s s' _ _ _
  | tobytes =>
    simp only [exec, execTobytes, h.bitseq]
    exact answersAlike_respond s s' _ _ _
  | tobytestr =>
    simp only [exec, execTobytestr, h.bitseq]
    exact answersAlike_respond s s' _ _ _
  | hash e off n seed =>
    simp only [exec, execHash, h.rangeLeavesBuf, h.buf]
    split_ifs
    · exact answersAlike_raise s s' _ _
    · exact answersAlike_respond s s' _ _ _

theorem step_command_sameBlock {s s' : State} {w : Cmd} {rest rest' : List HostAction}
    (h : SameBlock s s') (hp : s.pending = .command w :: rest)
    (hp' : s'.pending = .command w :: rest') :
    AnswersAlike { s with pending := rest } { s' with pending := rest' } (step s) (step s') := by
  cases hw : decode w with
  | ok i =>
    rw [step_of_legal_command hp hw, step_of_legal_command hp' hw]
    exact exec_sameBlock (h.with_pending rest rest') i
  | error e =>
    rw [step_of_illegal_command hp hw, step_of_illegal_command hp' hw]
    exact answersAlike_raise _ _ _ _

/-- What a step does to the block, and what it answers, depend on the block and the host's next action
alone. -/
theorem step_sameBlock {s s' t : State} (h : SameBlock s s')
    (hhead : s'.pending.head? = s.pending.head?) (hstep : step s = .next t) :
    ∃ t' rs, step s' = .next t' ∧ SameBlock t t' ∧ t.responses = s.responses ++ rs ∧
      t'.responses = s'.responses ++ rs := by
  cases hp : s.pending with
  | nil =>
    rw [hp, List.head?_nil, List.head?_eq_none_iff] at hhead
    cases (step_of_pending_nil hp).symm.trans hstep
    exact ⟨s', [], step_of_pending_nil hhead, h, by simp, by simp⟩
  | cons a rest =>
    rw [hp, List.head?_cons, List.head?_eq_some_iff] at hhead
    obtain ⟨rest', hp'⟩ := hhead
    cases a with
    | command w =>
      obtain ⟨new, r, hanswer, hanswer'⟩ := step_command_sameBlock h hp hp'
      cases hanswer.symm.trans hstep
      exact ⟨_, [r], hanswer', (h.with_pending rest rest').append_emit new r, rfl, rfl⟩
    | writeBuf addr v =>
      rw [step_of_writeBuf hp, hostWrite] at hstep
      split at hstep
      · next haddr =>
        cases hstep
        have haddr' : addr < s'.cfg.bufSize := h.cfg ▸ haddr
        exact ⟨_, [], (step_of_writeBuf hp').trans (hostWrite_of_lt v haddr'),
          ⟨h.cfg, h.bitseq, by simp [h.buf]⟩, by simp, by simp⟩
      · cases hstep
    | reset =>
      cases (step_of_reset hp).symm.trans hstep
      exact ⟨_, [], step_of_reset hp', ⟨h.cfg, rfl, h.buf⟩, by simp, by simp⟩

/-! ### Leaving out the commands that append nothing (41_bitstream_encoder.md R113) -/

theorem matters_of_decode_append {w : Cmd} {i : Instr} (hw : decode w = .ok i)
    (hi : (∃ value nbits, i = .appendbits value nbits) ∨ ∃ off len, i = .appendstr off len) :
    Claims.matters (.command w) = true := by
  rcases hi with ⟨value, nbits, rfl⟩ | ⟨off, len, rfl⟩ <;> simp [Claims.matters, hw]

/-- An action that does not matter leaves the block as it is. -/
theorem sameBlock_of_step_not_matters {s t : State} {a : HostAction} {rest : List HostAction}
    (hp : s.pending = a :: rest) (ha : ¬Claims.matters a = true) (h : step s = .next t) :
    SameBlock s t := by
  cases step_effect h with
  | idle hnil => exact ⟨rfl, rfl, rfl⟩
  | command w rest' new r hp' hecho hfail hcap happend hok =>
    cases hp.symm.trans hp'
    have hnew : new = [] := by
      by_contra hne
      obtain ⟨i, hw, hi⟩ := happend hne
      exact ha (matters_of_decode_append hw hi)
    exact ⟨rfl, by simp [hnew], rfl⟩
  | write addr v rest' hp' haddr =>
    cases hp.symm.trans hp'
    exact absurd rfl ha
  | reset rest' hp' =>
    cases hp.symm.trans hp'
    exact absurd rfl ha

theorem run_filter_matters (actions : List HostAction) {s s' t : State} (h : SameBlock s s')
    (hp : s.pending = actions) (hp' : s'.pending = actions.filter Claims.matters)
    (hrun : Host.Core.run core actions.length s = .next t) :
    ∃ t', Host.Core.run core (actions.filter Claims.matters).length s' = .next t' ∧
      SameBlock t t' := by
  induction actions generalizing s s' with
  | nil =>
    cases (run_zero s).symm.trans hrun
    exact ⟨s', run_zero s', h⟩
  | cons a rest ih =>
    obtain ⟨u, hstep, hrest⟩ := run_succ_next hrun
    have hpu : u.pending = rest := by rw [step_pending hstep, hp, List.tail_cons]
    by_cases ha : Claims.matters a = true
    · rw [List.filter_cons_of_pos ha] at hp' ⊢
      obtain ⟨u', -, hstep', hblock, -⟩ := step_sameBlock h (by rw [hp, hp']; rfl) hstep
      have hpu' : u'.pending = rest.filter Claims.matters := by
        rw [step_pending hstep', hp', List.tail_cons]
      obtain ⟨t', hrun', ht⟩ := ih hblock hpu hpu' hrest
      exact ⟨t', (run_succ _ hstep').trans hrun', ht⟩
    · rw [List.filter_cons_of_neg ha] at hp' ⊢
      have hskip := sameBlock_of_step_not_matters hp ha hstep
      have hblock : SameBlock u s' := ⟨h.cfg.trans hskip.cfg.symm, h.bitseq.trans hskip.bitseq.symm,
        h.buf.trans hskip.buf.symm⟩
      exact ih hblock hpu hp' hrest

/-- Settles O51: the run with the actions left out keeps the block of the whole run. -/
theorem onlyAppendsAndHostMovesMatter : Obligations.OnlyAppendsAndHostMovesMatter := by
  intro s t hrun
  obtain ⟨t', hrun', hblock⟩ := run_filter_matters s.pending
    (s := s) (s' := { s with pending := s.pending.filter Claims.matters }) ⟨rfl, rfl, rfl⟩ rfl rfl hrun
  exact ⟨t', hrun', hblock.bitseq, hblock.buf⟩

end Sys2Proof.Machine
end

section
/-! PROOFS. The steps of the hash, its loop and its tail, and what `HASH` answers. -/
namespace Sys2Proof.Machine

/-! ### The mixing steps (42_byte_block_hasher.md R131, R133, R134, R136) -/

/-- The product of words is the number's low 32 bits (00_scope.md R10). -/
theorem mul32_eq (a b : Word) : mul32 a b = a * b :=
  BitVec.eq_of_toNat_eq (by rw [mul32, BitVec.toNat_ofNat, BitVec.toNat_mul])

theorem mixk_eq (k : Word) :
    mixk k = (k * 0x5bd1e995 ^^^ (k * 0x5bd1e995) >>> 24) * 0x5bd1e995 := by
  simp only [mixk, mul32_eq]
  rfl

theorem mixh_eq (h k : Word) : mixh h k = h * 0x5bd1e995 ^^^ mixk k := by
  rw [mixh, mul32_eq, mixM]

theorem fmix_eq_finalize (h : Word) : fmix h = Claims.finalize h := by
  simp only [fmix, mul32_eq, mixM, Claims.finalize]

/-- Settles O27: `mul32` is the product of words, and the examples are evaluated. -/
theorem mixingStepsAreTheRules : Obligations.MixingStepsAreTheRules := by
  refine ⟨fun _ _ => rfl, fun a b => ?_, mixk_eq, fmix_eq_finalize, by decide⟩
  rw [mul32_eq, BitVec.toNat_mul]

/-! ### The tail (42_byte_block_hasher.md R135) -/

/-- Bytes XORed in at different places do not overlap. -/
theorem xor_bytes_eq_append (b0 b1 b2 : Byte) :
    b2.setWidth 32 <<< 16 ^^^ b1.setWidth 32 <<< 8 ^^^ b0.setWidth 32 =
      (0 : Byte) ++ b2 ++ b1 ++ b0 := by
  refine BitVec.eq_of_getLsbD_eq fun i hi => ?_
  simp only [BitVec.getLsbD_xor, BitVec.getLsbD_shiftLeft, BitVec.getLsbD_setWidth,
    BitVec.getLsbD_append]
  -- The cases are the byte bit `i` falls in; a byte has no bits from 8 on.
  split_ifs <;> grind

section
variable (m : Memory) (h : Word) (cur : Nat)

theorem hashTail_zero : hashTail m { h := h, cur := cur, rem := 0 } = h := rfl

theorem hashTail_one : hashTail m { h := h, cur := cur, rem := 1 } =
    (h ^^^ ((0 : BitVec 24) ++ Memory.read m cur)) * 0x5bd1e995 := by
  have hzero : (0 : BitVec 24) = (0 : Byte) ++ (0 : Byte) ++ (0 : Byte) := rfl
  rw [hzero, ← xor_bytes_eq_append]
  simp [hashTail, mul32_eq, mixM]

theorem hashTail_two : hashTail m { h := h, cur := cur, rem := 2 } =
    (h ^^^ ((0 : BitVec 16) ++ Memory.read m (cur + 1) ++ Memory.read m cur)) * 0x5bd1e995 := by
  have hzero : (0 : BitVec 16) = (0 : Byte) ++ (0 : Byte) := rfl
  rw [hzero, ← xor_bytes_eq_append]
  simp [hashTail, mul32_eq, mixM, BitVec.xor_assoc]

theorem hashTail_three : hashTail m { h := h, cur := cur, rem := 3 } =
    (h ^^^ ((0 : Byte) ++ Memory.read m (cur + 2) ++ Memory.read m (cur + 1) ++
      Memory.read m cur)) * 0x5bd1e995 := by
  rw [← xor_bytes_eq_append]
  simp [hashTail, mul32_eq, mixM, BitVec.xor_assoc]

end

/-- Settles O29, length by length. -/
theorem hashTailOfEachLength : Obligations.HashTailOfEachLength := fun m h cur =>
  ⟨hashTail_zero m h cur, hashTail_one m h cur, hashTail_two m h cur, hashTail_three m h cur⟩

/-! ### The loop (42_byte_block_hasher.md R134) -/

theorem hashLoop_of_rem_lt {m : Memory} {e : Endian} {w : HashWork} (turns : Nat) (hw : w.rem < 4) :
    hashLoop m e turns w = w := by
  cases turns with
  | zero => rfl
  | succ turns => exact if_neg hw.not_ge

theorem hashLoop_succ {m : Memory} {e : Endian} {w : HashWork} (turns : Nat) (hw : 4 ≤ w.rem) :
    hashLoop m e (turns + 1) w = hashLoop m e turns (hashTurn m e w) := if_pos hw

/-- The accumulator after the words at `cur`, `cur + 4`, ... are mixed in, `turns` of them. -/
def mixWords (m : Memory) (e : Endian) (cur turns : Nat) (h : Word) : Word :=
  (List.range turns).foldl (fun h i => mixh h (fetchWord m e (cur + 4 * i))) h

theorem mixWords_succ (m : Memory) (e : Endian) (cur turns : Nat) (h : Word) :
    mixWords m e cur (turns + 1) h =
      mixWords m e (cur + 4) turns (mixh h (fetchWord m e cur)) := by
  simp only [mixWords, List.range_succ_eq_map, List.foldl_cons, List.foldl_map, Nat.mul_zero,
    Nat.add_zero, Nat.mul_succ, Nat.add_assoc, Nat.add_comm 4]

theorem mixWords_congr {m m' : Memory} {e e' : Endian} {cur cur' turns : Nat}
    (hword : ∀ i, i < turns → fetchWord m e (cur + 4 * i) = fetchWord m' e' (cur' + 4 * i))
    (h : Word) : mixWords m e cur turns h = mixWords m' e' cur' turns h :=
  List.foldl_ext _ _ _ fun h i hi => by rw [hword i (List.mem_range.1 hi)]

/-- The loop mixes the words of its range and leaves the bytes past them. -/
theorem hashLoop_eq (m : Memory) (e : Endian) (w : HashWork) (extra : Nat) :
    hashLoop m e (w.rem / 4 + extra) w =
      { h := mixWords m e w.cur (w.rem / 4) w.h
        cur := w.cur + 4 * (w.rem / 4)
        rem := w.rem % 4 } := by
  induction hturns : w.rem / 4 generalizing w with
  | zero =>
    have hrem : w.rem < 4 := by omega
    rw [hashLoop_of_rem_lt _ hrem, Nat.mod_eq_of_lt hrem]
    rfl
  | succ turns ih =>
    have hrem : (hashTurn m e w).rem = w.rem - 4 := rfl
    rw [Nat.add_right_comm, hashLoop_succ _ (by omega), ih _ (by omega), mixWords_succ, hrem]
    simp only [hashTurn, HashWork.mk.injEq, true_and]
    omega

/-- Settles O28: the loop's closed form, and the rule for one word. -/
theorem hashLoopRunsFloorOfQuarterTurns : Obligations.HashLoopRunsFloorOfQuarterTurns := by
  refine ⟨hashLoop_eq, fun n => ?_, mixh_eq, by decide⟩
  have hn := n.isLt
  omega

/-! ### The hash of the bytes of a range (42_byte_block_hasher.md R130) -/

/-- A range by its first byte and the range after it. -/
theorem Memory.range_succ (m : Memory) (off n : Nat) :
    Memory.range m off (n + 1) = Memory.read m off :: Memory.range m (off + 1) n := by
  simp [Memory.range, List.range_succ_eq_map, Nat.add_assoc, Nat.add_comm 1, Function.comp_def]

/-- Four bytes at the front of a list are one word mixed in (20_memory.md R45). -/
theorem mixBytes_cons_four (e : Endian) (h : Word) (b0 b1 b2 b3 : Byte) (rest : List Byte) :
    Claims.mixBytes e h (b0 :: b1 :: b2 :: b3 :: rest) =
      Claims.mixBytes e (mixh h (fetch32 b0 b1 b2 b3 e)) rest := by
  rw [mixh_eq, mixk_eq]
  cases e with
  | little => rw [fetch32_little]; rfl
  | big => rw [fetch32_big, fetch32_little]; rfl

theorem mixBytes_range_add_four (m : Memory) (e : Endian) (h : Word) (cur n : Nat) :
    Claims.mixBytes e h (Memory.range m cur (n + 4)) =
      Claims.mixBytes e (mixh h (fetchWord m e cur)) (Memory.range m (cur + 4) n) := by
  simp only [Memory.range_succ, mixBytes_cons_four, fetchWord]

/-- Fewer than four bytes are the tail's. -/
theorem hashTail_eq_mixBytes (m : Memory) (e : Endian) (h : Word) (cur : Nat) {rem : Nat}
    (hrem : rem < 4) : hashTail m { h := h, cur := cur, rem := rem } =
      Claims.mixBytes e h (Memory.range m cur rem) := by
  match rem, hrem with
  | 0, _ => exact hashTail_zero m h cur
  | 1, _ => exact hashTail_one m h cur
  | 2, _ => exact hashTail_two m h cur
  | 3, _ => exact hashTail_three m h cur

/-- Whole words first, then the tail. -/
theorem mixBytes_range (m : Memory) (e : Endian) (h : Word) (cur turns rem : Nat) :
    Claims.mixBytes e h (Memory.range m cur (4 * turns + rem)) =
      Claims.mixBytes e (mixWords m e cur turns h) (Memory.range m (cur + 4 * turns) rem) := by
  induction turns generalizing h cur with
  | zero => rw [Nat.mul_zero, Nat.zero_add, Nat.add_zero]; rfl
  | succ turns ih =>
    have hlen : 4 * (turns + 1) + rem = 4 * turns + rem + 4 := by omega
    have hcur : cur + 4 * (turns + 1) = cur + 4 + 4 * turns := by omega
    rw [hlen, hcur, mixBytes_range_add_four, ih, mixWords_succ]

theorem hashBytes_eq (m : Memory) (e : Endian) (off n : Nat) (seed : Word) :
    hashBytes m e off n seed = fmix (hashTail m
      { h := mixWords m e off (n / 4) (seedHash seed (BitVec.ofNat 32 n))
        cur := off + 4 * (n / 4)
        rem := n % 4 }) := by
  rw [hashBytes]
  exact congrArg (fun w => fmix (hashTail m w)) (hashLoop_eq m e (hashStart off n seed) 0)

/-- The hash in the buffer is the hash of the list of bytes. -/
theorem hashBytes_eq_murmur (m : Memory) (e : Endian) (off n : Nat) (seed : Word) :
    hashBytes m e off n seed = Claims.murmur e seed (Memory.range m off n) := by
  rw [hashBytes_eq, hashTail_eq_mixBytes m e _ _ (Nat.mod_lt n (by decide)), ← mixBytes_range,
    Nat.div_add_mod, fmix_eq_finalize, Claims.murmur, Memory.range_length, seedHash]

/-! ### What `HASH` answers -/

section
variable {s : State} {off n : Word}

theorem exec_hash_of_inside (e : Endian) (seed : Word) (h : off.toNat + n.toNat ≤ s.cfg.bufSize) :
    exec (.hash e off n seed) s = .next (Claims.answered s (Claims.done (.hash e off n seed)
      (hashBytes s.buf e off.toNat n.toNat seed) [])) := by
  simp only [exec, execHash, rangeLeavesBuf_iff]
  rw [if_neg h.not_gt]
  rfl

theorem exec_hash_of_outside (e : Endian) (seed : Word) (h : s.cfg.bufSize < off.toNat + n.toNat) :
    exec (.hash e off n seed) s =
      .next (Claims.answered s (Claims.failed (.hash e off n seed) .bufferRange)) := by
  simp only [exec, execHash, rangeLeavesBuf_iff]
  rw [if_pos h]
  rfl

theorem exec_hash_murmur (e : Endian) (seed : Word) (h : off.toNat + n.toNat ≤ s.cfg.bufSize) :
    exec (.hash e off n seed) s = .next (Claims.answered s (Claims.done (.hash e off n seed)
      (Claims.murmur e seed (Claims.bytesAt s off.toNat n.toNat)) [])) := by
  rw [exec_hash_of_inside e seed h, hashBytes_eq_murmur]
  rfl

end

/-- The reserved bits of the format of `HASH` lie in the modifier (30_encoding.md R61). -/
theorem hashReserved_eq_mod (w : Cmd) : w.extractLsb' 97 23 = w.mod.extractLsb' 1 23 := by
  refine BitVec.eq_of_getLsbD_eq fun i hi => ?_
  simp [Cmd.mod, hi, show 1 + i < 24 by omega, ← Nat.add_assoc]

theorem decode_hash_reserved {w : Cmd} (hop : w.opcode = opHash)
    (hres : w.extractLsb' 97 23 ≠ 0) : decode w = .error .reservedBits := by
  rw [decode_of_hash hop, if_neg (hashReserved_eq_mod w ▸ hres)]

theorem encode_hash (e : Endian) (off n seed : Word) :
    encode (.hash e off n seed) =
      Cmd.ofWords (opHash ++ ((0 : BitVec 23) ++ e.bit)) off n seed := rfl

/-- Settles O30: the loop and the tail over `BUF` are the recursion over the bytes read. -/
theorem hashIsTheHashOfItsBytes : Obligations.HashIsTheHashOfItsBytes := by
  refine ⟨fun s e off n seed => ⟨exec_hash_murmur e seed, exec_hash_of_outside e seed⟩,
    fun off n seed => ⟨encode_hash .little off n seed, encode_hash .big off n seed⟩,
    fun s w rest hp hop hres => ?_, by decide, by decide⟩
  rw [step_of_illegal_command hp (decode_hash_reserved hop hres), illegalCommand, raise_eq,
    show w.opcode = 0x10 from hop]
  rfl

/-- Settles O31: the value is the hash of a list of bytes, the same list in both states. -/
theorem hashDependsOnItsBytesOnly : Obligations.HashDependsOnItsBytesOnly := by
  intro s s' e off off' n seed hin hin' hsame
  have hbytes : Claims.bytesAt s off.toNat n.toNat = Claims.bytesAt s' off'.toNat n.toNat :=
    List.map_congr_left fun i hi => hsame i (List.mem_range.1 hi)
  exact ⟨_, exec_hash_murmur e seed hin, hbytes ▸ exec_hash_murmur e seed hin'⟩

/-- Settles O32: no bytes leave the seed to be finalized. -/
theorem hashOfTheEmptyRange : Obligations.HashOfTheEmptyRange := by
  refine ⟨fun s e off seed hoff => ?_, by decide⟩
  have hempty : Claims.murmur e seed [] = Claims.finalize seed :=
    congrArg Claims.finalize BitVec.xor_zero
  rw [← hempty]
  exact exec_hash_murmur (n := 0) e seed hoff

/-- A palindrome of four bytes is one word in both orders (20_memory.md R45). -/
theorem fetchWord_of_palindrome {m : Memory} {addr : Nat}
    (houter : Memory.read m addr = Memory.read m (addr + 3))
    (hinner : Memory.read m (addr + 1) = Memory.read m (addr + 2)) :
    fetchWord m .little addr = fetchWord m .big addr := by
  rw [fetchWord, fetchWord, fetch32_big, houter, hinner]

/-- Byte order enters through the words of the loop alone (20_memory.md R45, R46). -/
theorem hashBytes_congr_endian {m : Memory} {off n : Nat} (seed : Word)
    (hword : ∀ j, j < n / 4 →
      fetchWord m .little (off + 4 * j) = fetchWord m .big (off + 4 * j)) :
    hashBytes m .little off n seed = hashBytes m .big off n seed := by
  rw [hashBytes_eq, hashBytes_eq, mixWords_congr hword]

/-- Settles O33: the words are the same in both orders when there are none or all are palindromes;
those of "abcd" are not. -/
theorem shortRangesDoNotSeeTheEndianness : Obligations.ShortRangesDoNotSeeTheEndianness := by
  have hlittle : Claims.murmur .little 0 [0x61, 0x62, 0x63, 0x64] = 0x26873021 := by decide
  have hbig : Claims.murmur .big 0 [0x61, 0x62, 0x63, 0x64] = 0xa71ab2c5 := by decide
  refine ⟨fun s off n seed hpal => ?_, fun s off hin habcd => ⟨?_, ?_⟩, hlittle, hbig⟩
  · have hword : ∀ j, j < n.toNat / 4 → fetchWord s.buf .little (off.toNat + 4 * j) =
        fetchWord s.buf .big (off.toNat + 4 * j) := by
      intro j hj
      rcases hpal with hshort | hpal
      · omega
      · exact fetchWord_of_palindrome (hpal j hj).1 (hpal j hj).2
    simp only [exec, execHash, hashBytes_congr_endian seed hword]
  · rw [← hlittle, ← habcd]
    exact exec_hash_murmur (n := 4) .little 0 hin
  · rw [← hbig, ← habcd]
    exact exec_hash_murmur (n := 4) .big 0 hin

end Sys2Proof.Machine
end

section
/-! PROOFS. The software around the block: the two string hashers and the counter of code points. -/
namespace Sys2Proof.Machine

/-! ### Truncation (43_host_software.md R170) -/

theorem truncate16_false (res : Word) : truncate16 false res = res := rfl

theorem truncate16_true_toNat (res : Word) : (truncate16 true res).toNat = res.toNat % 2 ^ 16 :=
  Nat.and_two_pow_sub_one_eq_mod res.toNat 16

/-- Settles O53: either hash is the truncation of one value, whatever the flag. -/
theorem truncationKeepsTheLowSixteenBits : Obligations.TruncationKeepsTheLowSixteenBits := by
  intro m e base len seed
  exact ⟨truncate16_true_toNat _, truncate16_true_toNat _⟩

/-! ### The short path of the dense hasher (43_host_software.md R161) -/

theorem denseHash_of_short {len : Nat} (m : Memory) (e : Endian) (base : Nat) (seed : Word)
    (h : len ≤ 4096) :
    denseHash m e base len seed false = hashBytes m e base len (derivedSeed seed len) := by
  rw [denseHash, truncate16_false, if_pos h]

/-- The length `HASH` XORs into its seed cancels the one the caller XORed in
(42_byte_block_hasher.md R140). -/
theorem hashBytes_derivedSeed (m : Memory) (e : Endian) (base len : Nat) (seed : Word) :
    hashBytes m e base len (derivedSeed seed len) =
      Claims.finalize (Claims.mixBytes e seed (Memory.range m base len)) := by
  rw [hashBytes_eq_murmur, Claims.murmur, Memory.range_length, derivedSeed, BitVec.xor_assoc,
    BitVec.xor_self, BitVec.xor_zero]

theorem denseHash_of_short_eq_finalize {len : Nat} (m : Memory) (e : Endian) (base : Nat)
    (seed : Word) (h : len ≤ 4096) : denseHash m e base len seed false =
      Claims.finalize (Claims.mixBytes e seed (Memory.range m base len)) := by
  rw [denseHash_of_short m e base seed h, hashBytes_derivedSeed]

/-- Settles O52: the short path is one hash of the string, under the derived seed. -/
theorem denseShortPathStartsAtTheSeed : Obligations.DenseShortPathStartsAtTheSeed := by
  intro s e base len seed h
  refine ⟨?_, denseHash_of_short_eq_finalize s.buf e base seed h⟩
  rw [denseHash_of_short s.buf e base seed h, hashBytes_eq_murmur]
  rfl

/-- Settles O58: the length of a short string is its own operand `n`. -/
theorem denseShortPathIsOneHashCommand : Obligations.DenseShortPathIsOneHashCommand := by
  intro s e base len seed h hin
  refine ⟨?_, denseHash_of_short_eq_finalize s.buf e base.toNat seed h⟩
  have hn : (BitVec.ofNat 32 len).toNat = len := by
    rw [BitVec.toNat_ofNat, Nat.mod_eq_of_lt (by omega)]
  have hexec := exec_hash_of_inside (s := s) (off := base) (n := BitVec.ofNat 32 len) e
    (derivedSeed seed len) (by rwa [hn])
  rw [hn, ← denseHash_of_short s.buf e base.toNat seed h] at hexec
  exact hexec

/-! ### The loops of the two hashers (43_host_software.md R162, R167) -/

theorem denseBlocks_of_le {len off : Nat} (m : Memory) (e : Endian) (base : Nat) (seed' : Word)
    (turns : Nat) (res : Word) (h : len ≤ off) :
    denseBlocks m e base len seed' turns off res = res := by
  cases turns with
  | zero => rfl
  | succ turns => exact if_neg h.not_gt

theorem denseSkip_pos (len : Nat) : 0 < denseSkip len := by
  rw [denseSkip]
  split <;> decide

/-- `off` grows in every turn, so as many turns as bytes are left end the loop. -/
theorem denseBlocks_add_extra {len turns off : Nat} (m : Memory) (e : Endian) (base : Nat)
    (seed' res : Word) (extra : Nat) (h : len ≤ off + turns) :
    denseBlocks m e base len seed' (turns + extra) off res =
      denseBlocks m e base len seed' turns off res := by
  induction turns generalizing off res with
  | zero => rw [denseBlocks_of_le (off := off) m e base seed' _ res h, denseBlocks]
  | succ turns ih =>
    have hskip := denseSkip_pos len
    rw [Nat.add_right_comm, denseBlocks, denseBlocks]
    split
    · exact ih _ (by omega)
    · rfl

theorem sparseLoop_of_lt {step off : Nat} (m : Memory) (base turns : Nat) (res : Word)
    (h : off < step) : sparseLoop m base step turns off res = res := by
  cases turns with
  | zero => rfl
  | succ turns => exact if_neg h.not_ge

/-- `off` falls in every turn, so `off` turns end the loop. -/
theorem sparseLoop_add_extra {step turns off : Nat} (m : Memory) (base : Nat) (res : Word)
    (extra : Nat) (hstep : 0 < step) (h : off ≤ turns) :
    sparseLoop m base step (turns + extra) off res = sparseLoop m base step turns off res := by
  induction turns generalizing off res with
  | zero => rw [sparseLoop_of_lt m base _ res (by omega), sparseLoop]
  | succ turns ih =>
    rw [Nat.add_right_comm, sparseLoop, sparseLoop]
    split
    · exact ih _ (by omega)
    · rfl

/-- Settles O55: both loops move on by at least one byte in every turn. -/
theorem stringHasherLoopsEndWithinTheirBounds :
    Obligations.StringHasherLoopsEndWithinTheirBounds :=
  ⟨fun m e base len seed' off res extra =>
      denseBlocks_add_extra m e base seed' res extra (Nat.le_add_left len off),
    fun m base len res extra =>
      sparseLoop_add_extra m base res extra (Nat.succ_pos (len / 32)) le_rfl⟩

/-! ### The sparse hash of small strings (43_host_software.md R167) -/

/-- Settles O56: the loop takes no turn over no bytes, and one for each byte of "abc". -/
theorem sparseHashOfSmallStrings : Obligations.SparseHashOfSmallStrings := by
  refine ⟨fun m base seed => ?_, by decide⟩
  rw [sparseHash, truncate16_false, sparseLoop_of_lt m base 0 _ (Nat.succ_pos _), derivedSeed]
  exact BitVec.xor_zero

/-! ### The counter of code points (43_host_software.md R169) -/

theorem codepointCount_append (x y : List Byte) :
    codepointCount (x ++ y) = codepointCount x + codepointCount y := List.countP_append

theorem codepointCount_singleton (b : Byte) :
    codepointCount [b] = if 0x80 ≤ b.toNat ∧ b.toNat ≤ 0xBF then 0 else 1 := by
  have hcounts : (decide (b.toNat < 0x80) || decide (0xC0 ≤ b.toNat)) = true ↔
      ¬(0x80 ≤ b.toNat ∧ b.toNat ≤ 0xBF) := by
    rw [Bool.or_eq_true, decide_eq_true_eq, decide_eq_true_eq]
    omega
  simp only [codepointCount, List.countP_singleton, hcounts, ite_not]

/-- Settles O54: the counter is a count over the list, and the fixed buffers are evaluated. -/
theorem codepointCounterSkipsContinuationBytes :
    Obligations.CodepointCounterSkipsContinuationBytes :=
  ⟨codepointCount_append, codepointCount_singleton, rfl, by decide⟩

end Sys2Proof.Machine
end

section
/-! PROOFS. Which status a command is answered with, and that an error changes nothing. -/
namespace Sys2Proof.Machine

/-! ### The status of a command (60_exceptions.md R200, R207) -/

/-- The status `exec` answers, by the checks alone, in the order of 60_exceptions.md R207. -/
def statusOf : Instr → State → Status
  | .appendbits value nbits, s =>
    if 32 < nbits.toNat then .illegalCommand
    else if valueTooWide value nbits.toNat then .rangeError
    else if passesCapacity s nbits.toNat then .capacity
    else .ok
  | .appendstr off len, s =>
    if rangeLeavesBuf s off.toNat len.toNat then .bufferRange
    else if passesCapacity s (8 * len.toNat) then .capacity
    else .ok
  | .bitlen, _ => .ok
  | .bytelen, _ => .ok
  | .tobytes, _ => .ok
  | .tobytestr, _ => .ok
  | .hash _ off n _, s => if rangeLeavesBuf s off.toNat n.toNat then .bufferRange else .ok

/-- The status of the last response of the state a step ends in. -/
def lastStatus : Host.Outcome State Fault Refusal → Option Status
  | .next t => t.responses.getLast?.map Response.status
  | .fault _ => none
  | .refused _ => none

@[simp] theorem lastStatus_next_emit (s : State) (r : Response) :
    lastStatus (.next (s.emit r)) = some r.status := by
  simp [lastStatus]

theorem lastStatus_exec (i : Instr) (s : State) : lastStatus (exec i s) = some (statusOf i s) := by
  cases i with
  | appendbits value nbits =>
    simp only [exec, execAppendbits, statusOf]
    split_ifs <;> simp
  | appendstr off len =>
    simp only [exec, execAppendstr, statusOf]
    split_ifs <;> simp
  | bitlen => exact lastStatus_next_emit _ _
  | bytelen => exact lastStatus_next_emit _ _
  | tobytes => exact lastStatus_next_emit _ _
  | tobytestr => exact lastStatus_next_emit _ _
  | hash e off n seed =>
    simp only [exec, execHash, statusOf]
    split_ifs <;> simp

/-- Every command answers under its own opcode with the status of its checks; with an error it
appends and carries nothing. -/
theorem exec_status (i : Instr) (s : State) :
    ∃ new r, exec i s = .next ((s.append new).emit r) ∧ r.echo = i.opcode ∧
      r.status = statusOf i s ∧ (r.status ≠ .ok → new = [] ∧ r.val = 0 ∧ r.bytes = []) := by
  obtain ⟨new, r, hexec, hecho, hfail, -⟩ := exec_cases i s
  have hstatus := lastStatus_exec i s
  rw [hexec, lastStatus_next_emit, Option.some_inj] at hstatus
  exact ⟨new, r, hexec, hecho, hstatus, hfail⟩

/-- A command fails with an error, changing nothing, exactly when its checks give that error. -/
theorem exec_eq_failed_iff {i : Instr} {s : State} {st : Status} (hst : st ≠ .ok) :
    exec i s = .next (Claims.answered s (Claims.failed i st)) ↔ statusOf i s = st := by
  constructor
  · intro h
    have hstatus := lastStatus_exec i s
    rw [h] at hstatus
    simpa [lastStatus] using hstatus.symm
  · rintro rfl
    obtain ⟨new, ⟨echo, status, val, bytes⟩, hexec, rfl, rfl, hfail⟩ := exec_status i s
    obtain ⟨rfl, rfl, rfl⟩ := hfail hst
    rwa [State.append_nil] at hexec

/-! ### Each error's cause (60_exceptions.md R201 to R205) -/

theorem valueTooWide_iff_shift (value : Word) (nbits : Nat) :
    valueTooWide value nbits = true ↔ value >>> nbits ≠ 0 := bne_iff_ne

/-- A well-formed `APPENDBITS` passes the check of its width. -/
theorem statusOf_appendbits {value : Word} {nbits : BitVec 6}
    (hwf : (Instr.appendbits value nbits).wf = true) (s : State) :
    statusOf (.appendbits value nbits) s =
      if valueTooWide value nbits.toNat then .rangeError
      else if passesCapacity s nbits.toNat then .capacity
      else .ok :=
  if_neg (of_decide_eq_true hwf).not_gt

theorem statusOf_eq_rangeError_iff {i : Instr} {s : State} (hwf : i.wf = true) :
    statusOf i s = .rangeError ↔
      ∃ value nbits, i = .appendbits value nbits ∧ value >>> nbits.toNat ≠ 0 := by
  cases i with
  | appendbits value nbits =>
    simp only [statusOf_appendbits hwf, valueTooWide_iff_shift]
    split_ifs with hwide <;> simpa using hwide
  | appendstr | hash =>
    simp only [statusOf]
    split_ifs <;> simp
  | bitlen | bytelen | tobytes | tobytestr => simp [statusOf]

theorem statusOf_eq_bufferRange_iff {i : Instr} {s : State} :
    statusOf i s = .bufferRange ↔
      (∃ e off n seed, i = .hash e off n seed ∧ s.cfg.bufSize < off.toNat + n.toNat) ∨
      (∃ off len, i = .appendstr off len ∧ s.cfg.bufSize < off.toNat + len.toNat) := by
  cases i with
  | appendbits =>
    simp only [statusOf]
    split_ifs <;> simp
  | appendstr off len =>
    simp only [statusOf, rangeLeavesBuf_iff]
    split_ifs with hrange <;> simp [hrange]
  | hash e off n seed =>
    simp only [statusOf, rangeLeavesBuf_iff]
    split_ifs with hrange <;> simp [hrange]
  | bitlen | bytelen | tobytes | tobytestr => simp [statusOf]

theorem statusOf_eq_capacity_iff {i : Instr} {s : State} (hwf : i.wf = true) :
    statusOf i s = .capacity ↔
      (∃ value nbits, i = .appendbits value nbits ∧ value.toNat < 2 ^ nbits.toNat ∧
        s.cfg.bitCap < s.bitseq.length + nbits.toNat) ∨
      (∃ off len, i = .appendstr off len ∧ off.toNat + len.toNat ≤ s.cfg.bufSize ∧
        s.cfg.bitCap < s.bitseq.length + 8 * len.toNat) := by
  cases i with
  | appendbits value nbits =>
    simp only [statusOf_appendbits hwf, valueTooWide_iff, passesCapacity_iff]
    split_ifs with hwide hfull
    · simp [hwide]
    · simp [not_le.1 hwide, hfull]
    · simp [hfull]
  | appendstr off len =>
    simp only [statusOf, rangeLeavesBuf_iff, passesCapacity_iff]
    split_ifs with hrange hfull
    · simp [hrange]
    · simp [not_lt.1 hrange, hfull]
    · simp [hfull]
  | hash =>
    simp only [statusOf]
    split_ifs <;> simp
  | bitlen | bytelen | tobytes | tobytestr => simp [statusOf]

theorem statusOf_ne_illegalCommand {i : Instr} (s : State) (hwf : i.wf = true) :
    statusOf i s ≠ .illegalCommand := by
  cases i with
  | appendbits value nbits =>
    rw [statusOf_appendbits hwf]
    split_ifs <;> simp
  | appendstr | hash =>
    simp only [statusOf]
    split_ifs <;> simp
  | bitlen | bytelen | tobytes | tobytestr => simp [statusOf]

/-- Settles O34: it is the second check of `APPENDBITS`, which a well-formed one reaches. -/
theorem rangeErrorExactlyWhenTheValueIsTooWide :
    Obligations.RangeErrorExactlyWhenTheValueIsTooWide :=
  ⟨rfl, fun _ _ hwf => (exec_eq_failed_iff (by decide)).trans (statusOf_eq_rangeError_iff hwf),
    fun _ => exec_appendbits_of_tooWide (by decide) (by decide)⟩

/-- Settles O35: it is the first check of the two commands with a range, and of no other. -/
theorem bufferRangeExactlyWhenTheRangeLeavesBuf :
    Obligations.BufferRangeExactlyWhenTheRangeLeavesBuf :=
  ⟨rfl, fun _ _ => (exec_eq_failed_iff (by decide)).trans statusOf_eq_bufferRange_iff⟩

/-- Settles O36: it is the last check of the two appends. -/
theorem capacityExactlyWhenTheAppendDoesNotFit :
    Obligations.CapacityExactlyWhenTheAppendDoesNotFit :=
  ⟨rfl, fun _ _ hwf => (exec_eq_failed_iff (by decide)).trans (statusOf_eq_capacity_iff hwf)⟩

/-- Settles O37: a word that decodes gives a well-formed command, whose checks never end in
`ILLEGAL_COMMAND`. -/
theorem illegalWordsAnswerIllegalCommand : Obligations.IllegalWordsAnswerIllegalCommand := by
  refine ⟨rfl, fun s w rest hp hillegal => ?_, fun s t w rest i hp hw hstep => ?_⟩
  · cases hw : decode w with
    | ok i => exact absurd hw (hillegal i)
    | error e => exact step_of_illegal_command hp hw
  · obtain ⟨new, r, hexec, hecho, hstatus, -⟩ := exec_status i { s with pending := rest }
    rw [step_of_legal_command hp hw, hexec] at hstep
    cases hstep
    obtain ⟨-, hwf⟩ := encodeOfDecodeIsTheWord w i hw
    exact ⟨r, rfl, hecho.trans (opcode_of_decode hw), hstatus ▸ statusOf_ne_illegalCommand _ hwf⟩

/-! ### After an error (60_exceptions.md R200) -/

/-- A step that answers a command word with an error only takes the word and emits the response. -/
theorem step_of_error {s t : State} {w : Cmd} {rest : List HostAction} {r : Response}
    (hp : s.pending = .command w :: rest) (h : step s = .next t)
    (hresp : t.responses = s.responses ++ [r]) (hst : r.status ≠ .ok) :
    t = { s with pending := rest, responses := s.responses ++ [r] } ∧ r.val = 0 ∧ r.bytes = [] := by
  cases step_effect h with
  | idle hnil => simp [hnil] at hp
  | command w' rest' new r' hp' hecho hfail =>
    cases hp.symm.trans hp'
    obtain rfl : r' = r := by simpa using hresp
    obtain ⟨rfl, hval, hbytes⟩ := hfail hst
    exact ⟨by rw [List.append_nil], hval, hbytes⟩
  | write addr v rest' hp' => cases hp.symm.trans hp'
  | reset rest' hp' => cases hp.symm.trans hp'

/-- Settles O38: the error leaves the block as it was, and a command's effect and answer depend on the
block alone. -/
theorem errorsChangeNothing : Obligations.ErrorsChangeNothing := by
  intro s t w rest r hp h hresp hst
  obtain ⟨rfl, hval, hbytes⟩ := step_of_error hp h hresp hst
  refine ⟨rfl, hval, hbytes, fun i => ?_⟩
  have hblock : SameBlock { s with pending := rest }
      { s with pending := rest, responses := s.responses ++ [r] } := ⟨rfl, rfl, rfl⟩
  obtain ⟨new, r', hexec, hexec'⟩ := exec_sameBlock hblock i
  exact ⟨_, _, r', hexec, hexec', rfl, rfl, rfl, rfl⟩

end Sys2Proof.Machine
end

section
/-! PROOFS. Reset, waiting, and that no response is read back. -/
namespace Sys2Proof.Machine

/-! ### Runs of one block (70_reset_and_hazards.md R237; 10_state.md R33) -/

/-- What a run does to the block and the queue, and what it answers, depend on the block and the queue
alone. -/
theorem run_sameBlock (k : Nat) {s s' t : State} (h : SameBlock s s')
    (hp : s'.pending = s.pending) (hrun : Host.Core.run core k s = .next t) :
    ∃ t' rs, Host.Core.run core k s' = .next t' ∧ SameBlock t t' ∧ t'.pending = t.pending ∧
      t.responses = s.responses ++ rs ∧ t'.responses = s'.responses ++ rs := by
  induction k generalizing s s' with
  | zero =>
    cases (run_zero s).symm.trans hrun
    exact ⟨s', [], run_zero s', h, hp, by simp, by simp⟩
  | succ k ih =>
    obtain ⟨u, hstep, hrest⟩ := run_succ_next hrun
    obtain ⟨u', rs, hstep', hblock, hresp, hresp'⟩ := step_sameBlock h (congrArg List.head? hp) hstep
    have hpu : u'.pending = u.pending := by rw [step_pending hstep', step_pending hstep, hp]
    obtain ⟨t', rs', hrun', ht, hpt, hrespt, hrespt'⟩ := ih hblock hpu hrest
    exact ⟨t', rs ++ rs', (run_succ k hstep').trans hrun', ht, hpt,
      by rw [hrespt, hresp, List.append_assoc], by rw [hrespt', hresp', List.append_assoc]⟩

/-- Settles O50: the two states are the same block with the same queue, and stay so along the run. -/
theorem responsesAreNeverReadBack : Obligations.ResponsesAreNeverReadBack := by
  intro k s s' t hcfg hbitseq hbuf hp hrun
  obtain ⟨t', rs, hrun', hblock, hpt, hresp, hresp'⟩ :=
    run_sameBlock k ⟨hcfg, hbitseq, hbuf⟩ hp hrun
  exact ⟨t', rs, hrun', hblock.bitseq, hblock.buf, hpt, hresp, hresp'⟩

/-! ### Reset and waiting (70_reset_and_hazards.md R230) -/

/-- Settles O2: the step's equation for the action reset. -/
theorem resetEmptiesOnlyTheSequence : Obligations.ResetEmptiesOnlyTheSequence :=
  fun _ _ hp => step_of_reset hp

/-- Settles O5: the step's equation for the empty queue. -/
theorem idleBlockWaits : Obligations.IdleBlockWaits :=
  fun _ hp => step_of_pending_nil hp

end Sys2Proof.Machine
end
